-- ==== Sys2Proof/Word.lean ====
section
/-! DEFINITION. The machine's word (spec/00_scope.md R4, R5): 16 bits, unsigned. -/

namespace Sys2Proof

/-- The 16-bit cell: a memory cell, a register, a stack entry, an operand word (R4, R6). -/
abbrev Word := BitVec 16

/-- A byte of a program image's file; the core itself has no bytes (R34). -/
abbrev Byte := BitVec 8

end Sys2Proof
end

