-- ==== Sys2Proof/Config.lean ====
section
/-! DEFINITION. The implementation parameters of spec/00_scope.md R4 and the model's one free value.

`IMAGE` is an argument of `resetWith` (Machine/Boot.lean). -/

namespace Sys2Proof

/-- `NUM_MAX`: the largest literal number and the largest address (R4). -/
@[simp] def Config.numMax : Nat := 32767

/-- `MEM_WORDS`: the number of memory cells (R4). -/
@[simp] def Config.memWords : Nat := 32768

/-- `MODULUS`: the modulus of `add` and `mult` (R4). -/
@[simp] def Config.modulus : Nat := 32768

/-- `REG_BASE`: register r is denoted by the number `REG_BASE + r` (R4). -/
@[simp] def Config.regBase : Nat := 32768

/-- `REG_TOP`: the number of the last register (R4). -/
@[simp] def Config.regTop : Nat := 32775

/-- `PC_RESET` (R4). -/
@[simp] def Config.pcReset : Word := 0

/-- `STACK_DEPTH`: the most words the stack can hold, none where it is unbounded, which is the default. DESIGN CHOICE (D17,
U2, log 17), unsafe against a finite build. -/
def Config.stackDepth : Option Nat := none

/-- `REG_RESET`: what each register holds after reset. DESIGN CHOICE (D3, log 4), unsafe. -/
@[simp] def Config.regReset : Word := 0

/-- `NEWLINE`: the code the core appends after each input line. PRESUMED (D19, log 6), unsafe. -/
def Config.newline : Word := 10

/-- The parts of the state that are unspecified after a fault (spec/60_exceptions.md R163, D9, U6). -/
structure Config.Residue where
  x : Vector Word 8
  cells : List (Nat × Word)
  stack : List Word
  inq : List Word
  deriving DecidableEq, Repr, Inhabited

/-- FREE VALUE (R163, D9, U6, log 3): what registers, memory, stack and input queue hold once a fault has been
taken. Its arguments are the fault record (pc, opcode word, cause code, value) and what the instruction's pseudocode
had left in those parts when it raised. Nothing constrains it: it may keep what the pseudocode left, or not. -/
opaque Config.afterFault (pc : Word) (opcode : Option Word) (cause : Nat) (value : Word)
    (left : Config.Residue) : Config.Residue

end Sys2Proof
end

