-- ==== Sys2Proof/Machine/Alu.lean ====
section
/-! DEFINITION. The datapath of each computing instruction, on whole 16-bit words (spec/44_arithmetic_logic.md R120 to R127,
spec/42_compare.md R100, R101). Sums and products are exact before they are reduced (R126). -/

namespace Sys2Proof.Machine

/-- R100: all 16 bits are compared (D13). -/
def aluEq (b c : Word) : Word := if b = c then 1 else 0

/-- R101: unsigned, all 16 bits (D13). -/
def aluGt (b c : Word) : Word := if b.toNat > c.toNat then 1 else 0

/-- R120 -/
def aluAdd (b c : Word) : Word := BitVec.ofNat 16 ((b.toNat + c.toNat) % Config.modulus)

/-- R121 -/
def aluMult (b c : Word) : Word := BitVec.ofNat 16 (b.toNat * c.toNat % Config.modulus)

/-- R122, for a divisor that is not 0. -/
def aluMod (b c : Word) : Word := BitVec.ofNat 16 (b.toNat % c.toNat)

/-- R123 -/
def aluAnd (b c : Word) : Word := b &&& c

/-- R124 -/
def aluOr (b c : Word) : Word := b ||| c

/-- R125: bits 14 to 0 are flipped, bit 15 passes through. -/
def aluNot (b : Word) : Word := 32767 ^^^ b

end Sys2Proof.Machine
end

