-- ==== Sys2Proof/WellFormed.lean ====
section
/-! DEFINITION. Which instruction terms stand for words of the machine (`WellFormed`), and which of those hold, in
every operand, a word that the operand's role accepts (`RolesFit`, spec/30_encoding.md R53, R57). -/

namespace Sys2Proof

/-- The term `invalid w` is meant for the words 32776 to 65535 only (R52): a smaller `w` is another operand's word. -/
def Operand.wellFormed : Operand → Bool
  | .lit _ => true
  | .reg _ => true
  | .invalid w => decide (32775 < w.toNat)

/-- An operand that is not an invalid word: it has a value and it can be written to (R57). -/
def Operand.valid : Operand → Bool
  | .lit _ => true
  | .reg _ => true
  | .invalid _ => false

/-- A register reference: what the register destination of `set` must be (R53, R90). -/
def Operand.isReg : Operand → Bool
  | .lit _ => false
  | .reg _ => true
  | .invalid _ => false

/-- Every operand of the instruction stands for one word. -/
def Instr.wellFormed (i : Instr) : Bool := i.operands.all Operand.wellFormed

/-- Every operand word has a meaning in its role (R53, R57). -/
def Instr.rolesFit : Instr → Bool
  | .set a b => a.isReg && b.valid
  | .halt => true
  | .push a => a.valid
  | .pop a => a.valid
  | .eq a b c => a.valid && b.valid && c.valid
  | .gt a b c => a.valid && b.valid && c.valid
  | .jmp a => a.valid
  | .jt a b => a.valid && b.valid
  | .jf a b => a.valid && b.valid
  | .add a b c => a.valid && b.valid && c.valid
  | .mult a b c => a.valid && b.valid && c.valid
  | .mod a b c => a.valid && b.valid && c.valid
  | .and a b c => a.valid && b.valid && c.valid
  | .or a b c => a.valid && b.valid && c.valid
  | .not a b => a.valid && b.valid
  | .rmem a b => a.valid && b.valid
  | .wmem a b => a.valid && b.valid
  | .call a => a.valid
  | .ret => true
  | .out a => a.valid
  | .inp a => a.valid
  | .noop => true

end Sys2Proof
end

