-- ==== Sys2Proof/Decode.lean ====
section
/-! DEFINITION. From words to instructions and back (spec/30_encoding.md R50 to R59). -/

namespace Sys2Proof

/-- The class of an operand word (R52): 0 to 32767 literal, 32768 to 32775 register `w - 32768`, else invalid. -/
def Operand.ofWord (w : Word) : Operand :=
  if w.toNat ≤ Config.numMax then .lit (w.setWidth 15)
  else if w.toNat ≤ Config.regTop then .reg (Fin.ofNat 8 (w.toNat - Config.regBase))
  else .invalid w

/-- The operand's word (R52). -/
def Operand.toWord : Operand → Word
  | .lit n => n.setWidth 16
  | .reg r => BitVec.ofNat 16 (Config.regBase + r.val)
  | .invalid w => w

/-- The opcode id as the table gives it (R54). -/
def Opcode.word : Opcode → Word
  | .halt => 0x0000
  | .set => 0x0001
  | .push => 0x0002
  | .pop => 0x0003
  | .eq => 0x0004
  | .gt => 0x0005
  | .jmp => 0x0006
  | .jt => 0x0007
  | .jf => 0x0008
  | .add => 0x0009
  | .mult => 0x000A
  | .mod => 0x000B
  | .and => 0x000C
  | .or => 0x000D
  | .not => 0x000E
  | .rmem => 0x000F
  | .wmem => 0x0010
  | .call => 0x0011
  | .ret => 0x0012
  | .out => 0x0013
  | .inp => 0x0014
  | .noop => 0x0015

/-- The row a word 0 selects: all 16 bits must equal the id (R54); every word above 21 is illegal (R56). -/
def Opcode.ofWord (w : Word) : Option Opcode :=
  match w.toNat with
  | 0 => some .halt
  | 1 => some .set
  | 2 => some .push
  | 3 => some .pop
  | 4 => some .eq
  | 5 => some .gt
  | 6 => some .jmp
  | 7 => some .jt
  | 8 => some .jf
  | 9 => some .add
  | 10 => some .mult
  | 11 => some .mod
  | 12 => some .and
  | 13 => some .or
  | 14 => some .not
  | 15 => some .rmem
  | 16 => some .wmem
  | 17 => some .call
  | 18 => some .ret
  | 19 => some .out
  | 20 => some .inp
  | 21 => some .noop
  | _ => none

/-- The length in words of the opcode's format, W1 to W4 (R51, R55). -/
def Opcode.length : Opcode → Nat
  | .halt | .ret | .noop => 1
  | .push | .pop | .jmp | .call | .out | .inp => 2
  | .set | .jt | .jf | .not | .rmem | .wmem => 3
  | .eq | .gt | .add | .mult | .mod | .and | .or => 4

/-- Why a list of words is no instruction: word 0 is no opcode id (R56), or the list ends before the
instruction's word number `k`. -/
inductive DecodeError where
  | invalidOpcode (w : Word)
  | missingWord (k : Nat)
  deriving DecidableEq, Repr

/-- What the decoder answers: an instruction with the words after it, or the reason there is none. -/
abbrev Decoded := Except DecodeError (Instr × List Word)

/-- Format W1 (R51). -/
def decodeW1 (i : Instr) (ws : List Word) : Decoded := .ok (i, ws)

/-- Format W2 (R51). -/
def decodeW2 (mk : Operand → Instr) : List Word → Decoded
  | a :: rest => .ok (mk (.ofWord a), rest)
  | [] => .error (.missingWord 1)

/-- Format W3 (R51). -/
def decodeW3 (mk : Operand → Operand → Instr) : List Word → Decoded
  | a :: b :: rest => .ok (mk (.ofWord a) (.ofWord b), rest)
  | [_] => .error (.missingWord 2)
  | [] => .error (.missingWord 1)

/-- Format W4 (R51). -/
def decodeW4 (mk : Operand → Operand → Operand → Instr) : List Word → Decoded
  | a :: b :: c :: rest => .ok (mk (.ofWord a) (.ofWord b) (.ofWord c), rest)
  | [_, _] => .error (.missingWord 3)
  | [_] => .error (.missingWord 2)
  | [] => .error (.missingWord 1)

/-- The operand words of a row of the table (R51, R54). -/
def Opcode.decodeOperands : Opcode → List Word → Decoded
  | .halt, ws => decodeW1 .halt ws
  | .set, ws => decodeW3 .set ws
  | .push, ws => decodeW2 .push ws
  | .pop, ws => decodeW2 .pop ws
  | .eq, ws => decodeW4 .eq ws
  | .gt, ws => decodeW4 .gt ws
  | .jmp, ws => decodeW2 .jmp ws
  | .jt, ws => decodeW3 .jt ws
  | .jf, ws => decodeW3 .jf ws
  | .add, ws => decodeW4 .add ws
  | .mult, ws => decodeW4 .mult ws
  | .mod, ws => decodeW4 .mod ws
  | .and, ws => decodeW4 .and ws
  | .or, ws => decodeW4 .or ws
  | .not, ws => decodeW3 .not ws
  | .rmem, ws => decodeW3 .rmem ws
  | .wmem, ws => decodeW3 .wmem ws
  | .call, ws => decodeW2 .call ws
  | .ret, ws => decodeW1 .ret ws
  | .out, ws => decodeW2 .out ws
  | .inp, ws => decodeW2 .inp ws
  | .noop, ws => decodeW1 .noop ws

/-- The instruction at the head of a list of words, with the words after it (R50, R54, R55). -/
def decode : List Word → Decoded
  | [] => .error (.missingWord 0)
  | w :: ws =>
    match Opcode.ofWord w with
    | some op => op.decodeOperands ws
    | none => .error (.invalidOpcode w)

/-- The instruction's words: the opcode id, then the operand words in the order a, b, c (R50). -/
def encode (i : Instr) : List Word := i.opcode.word :: i.operands.map Operand.toWord

/-- An instruction's length in words (R51, R55). -/
def Instr.length (i : Instr) : Nat := i.opcode.length

/-- The four words of an instruction given as one number: bit 0 is the least significant bit of the first word, a
later word's bits count on, and the bits from `nbits` up are 0. -/
def tableWords (nbits w : Nat) : List Word :=
  let v := w % 2 ^ nbits
  [BitVec.ofNat 16 v, BitVec.ofNat 16 (v / 2 ^ 16), BitVec.ofNat 16 (v / 2 ^ 32), BitVec.ofNat 16 (v / 2 ^ 48)]

/-- The instruction the decoder reads from an instruction given as one number (log 26). -/
def decodeTableWord (nbits w : Nat) : Option Instr :=
  match decode (tableWords nbits w) with
  | .ok (i, _) => some i
  | .error _ => none

end Sys2Proof
end

