-- ==== Sys2Proof/Machine/State.lean ====
section
/-! DEFINITION. The whole state of the core (spec/10_state.md R10), the reasons a step can stop, and reset. -/

namespace Sys2Proof.Machine

/-- The 32768 cells (R24), as the list of the cells that do not hold 0, addresses rising (log 1). -/
abbrev Memory := List (Nat × Word)

/-- Where the loop stands (R19). -/
inductive Status where
  | running
  | waitInput
  | halted
  | faulted
  deriving DecidableEq, Repr

/-- The causes of a fault (spec/60_exceptions.md R151). `valueOverflow` is never raised (R153, log 20). -/
inductive Cause where
  | outOfRangeAddress
  | valueOverflow
  | invalidOperand
  | invalidNumber
  | invalidOpcode
  | invalidRegisterTarget
  | stackUnderflow
  | divideByZero
  deriving DecidableEq, Repr

/-- The fault record (R25, R160): `opcode` is none when the opcode fetch itself faulted. -/
structure FaultRecord where
  cause : Cause
  pc : Word
  opcode : Option Word
  value : Word
  deriving DecidableEq, Repr

/-- What `raise Cause(info)` carries (R150, R151). -/
structure Raise where
  cause : Cause
  info : Word
  deriving DecidableEq, Repr

/-- Reasons for which `step` answers no next state. They are not the machine's faults: a fault of the machine is taken,
as a NEXT state in FAULTED with its record (R150, R160, log 2). -/
inductive Fault where
  /-- Raised by `step` in HALTED, where the core has no step (R83). Safe: nothing can be proved of a step that is not. -/
  | coreHalted
  /-- Raised by `step` in FAULTED, where the core has no step (R83, R150). Safe, for the same reason. -/
  | coreFaulted
  deriving DecidableEq, Repr

/-- Requests the model does not accept. -/
inductive Refusal where
  /-- Raised by `exec` for an instruction without a meaning. Safe. No instruction is left so. -/
  | notModelled (mnemonic : String)
  /-- Raised by `resetWith` for an IMAGE of more than 32768 words (spec/70_reset_and_hazards.md R180). Safe. -/
  | imageTooLong
  /-- Raised by `hostDeliver` outside WAIT_INPUT: the host may deliver a line only there (spec/46_io.md R142). Safe. -/
  | lineNotRequested
  /-- Raised by `push` and `call` in a build with a finite STACK_DEPTH, on a stack that already holds so many words
  (spec/93_implementation_defined.md U2). Safe. At the default, unbounded, nothing raises it. -/
  | stackDepthReached
  deriving DecidableEq, Repr

/-- The state (R10). `halted` is the view `State.halted` of `status` (D7, log 23). -/
structure State where
  /-- R24 -/
  mem : Memory
  /-- R11 -/
  x : Vector Word 8
  /-- R15 -/
  pc : Word
  /-- R19, and `halted` of R18 -/
  status : Status
  /-- R22; the top is at the right end (R5) -/
  stack : List Word
  /-- R23; the head is at the left end (R5) -/
  inq : List Word
  /-- R25; none where R28 says "not valid" -/
  fault : Option FaultRecord
  /-- R26; grows at the right end (R5) -/
  out : List Word
  /-- The model's own field: the lines the host is going to deliver, next first (R84, log 8). -/
  hostLines : List (List Word)
  deriving DecidableEq, Repr

/-- The outcome of a step or of an instruction. -/
abbrev Result := Host.Outcome State Fault Refusal

/-- The core after reset with the empty IMAGE (R28, R180): every cell 0. `resetWith` (Machine/Boot.lean) takes any IMAGE.
The registers, the stack and the queue are at DESIGN CHOICE values (D3, D4, logs 4 and 5), `hostLines` too (log 8). -/
def State.reset : State where
  mem := []
  x := Vector.replicate 8 Config.regReset
  pc := Config.pcReset
  status := .running
  stack := []
  inq := []
  fault := none
  out := []
  hostLines := []

end Sys2Proof.Machine
end

