-- ==== Sys2Proof/Machine/Flags.lean ====
section
/-! DEFINITION. The machine's one flag, `halted`, and the run status around it (spec/10_state.md R18, R19). There are no
condition codes: no carry, overflow, zero or sign flag is computed by any instruction (R20). -/

namespace Sys2Proof.Machine

/-- The halted flag (R18): it is `status == HALTED` (R19, D7). -/
def State.halted (s : State) : Bool := s.status == .halted

/-- `halted <- true`; status becomes HALTED and nothing else changes (spec/43_control_flow.md R105). -/
def setHalted (s : State) : State := { s with status := .halted }

/-- `status <- WAIT_INPUT`; nothing else changes (spec/46_io.md R141). -/
def setWaiting (s : State) : State := { s with status := .waitInput }

end Sys2Proof.Machine
end

