-- ==== Sys2Proof/Machine/Memory.lean ====
section
/-! DEFINITION. The memory array as plain data: reading and writing one cell, and the canonical form (log 1). -/

namespace Sys2Proof.Machine

/-- What cell `a` holds; an unlisted cell holds 0 (spec/10_state.md R28). -/
def Memory.read : Memory → Nat → Word
  | [], _ => 0
  | c :: m, a => if c.1 = a then c.2 else Memory.read m a

/-- The memory with no entry for `a`. -/
def Memory.erase (m : Memory) (a : Nat) : Memory := m.filter (fun c => c.1 != a)

/-- An entry put in before the first larger address. -/
def Memory.insert : Memory → Nat → Word → Memory
  | [], a, v => [(a, v)]
  | c :: m, a, v => if a < c.1 then (a, v) :: c :: m else c :: Memory.insert m a v

/-- Cell `a` set to `v`; a cell that holds 0 is not listed. -/
def Memory.write (m : Memory) (a : Nat) (v : Word) : Memory :=
  if v = 0 then m.erase a else (m.erase a).insert a v

/-- The canonical form: addresses strictly rising, inside memory, and no listed 0. -/
abbrev Memory.wf (m : Memory) : Prop :=
  m.Pairwise (fun c d => c.1 < d.1) ∧ ∀ c ∈ m, c.1 < Config.memWords ∧ c.2 ≠ 0

/-- The memory that any list of cells describes, later entries over earlier ones, entries outside memory dropped. -/
def Memory.ofCells (cells : List (Nat × Word)) : Memory :=
  cells.foldl (fun m c => if c.1 < Config.memWords then Memory.write m c.1 c.2 else m) []

/-- The memory whose cells from `a` up hold the given words, and 0 elsewhere (spec/30_encoding.md R62). -/
def Memory.ofWordsAt : Nat → List Word → Memory
  | _, [] => []
  | a, w :: ws => if w = 0 then Memory.ofWordsAt (a + 1) ws else (a, w) :: Memory.ofWordsAt (a + 1) ws

end Sys2Proof.Machine
end

