-- ==== Sys2Proof/Machine/Ops.lean ====
section
/-! DEFINITION. The named operations over memory, registers, stack and pc, and taking a fault. -/

namespace Sys2Proof.Machine

/-- `MemRead(addr, 1)` (spec/20_memory.md R31). -/
def memRead (addr : Nat) (s : State) : Except Raise Word :=
  if addr > Config.numMax then .error ⟨.outOfRangeAddress, BitVec.ofNat 16 addr⟩
  else .ok (s.mem.read addr)

/-- `MemWrite(addr, 1, v)` (R32). Its `ValueOverflow` check cannot fail on a 16-bit `v` (R32, D23, log 20). -/
def memWrite (addr : Nat) (v : Word) (s : State) : Except Raise State :=
  if addr > Config.numMax then .error ⟨.outOfRangeAddress, BitVec.ofNat 16 addr⟩
  else .ok { s with mem := s.mem.write addr v }

/-- `x[r]` (spec/10_state.md R11). -/
def getReg (r : Fin 8) (s : State) : Word := s.x[r]

/-- `x[r] <- v`: any 16-bit value, no range check (R13). -/
def setReg (r : Fin 8) (v : Word) (s : State) : State := { s with x := s.x.set r v }

/-- `Push(v)` (spec/40_execution_cycle.md R77). -/
def push (v : Word) (s : State) : State := { s with stack := s.stack ++ [v] }

/-- Whether a stack of at most `depth` words can take one more; an unbounded one always can (R22, U2). -/
def stackHasRoom (depth : Option Nat) (s : State) : Bool :=
  match depth with
  | none => true
  | some d => decide (s.stack.length < d)

/-- An instruction's push and what follows it. At the default STACK_DEPTH, unbounded, the push cannot fail (R22, R77); a
finite build has no fault for it and refuses the push beyond its depth (U2, D17, log 17). -/
def pushThen (depth : Option Nat) (v : Word) (s : State) (rest : State → Result) : Result :=
  if stackHasRoom depth s then rest (push v s) else .refused .stackDepthReached

/-- `Pop()` (R77): the top and the state without it, or none if the stack is empty. -/
def pop (s : State) : Option (Word × State) :=
  match s.stack.getLast? with
  | none => none
  | some v => some (v, { s with stack := s.stack.dropLast })

/-- `pc <- t`. -/
def setPc (t : Word) (s : State) : State := { s with pc := t }

/-- `pc <- pc + n` (R16, R17): no wrap, since the sum is at most 32768 for an instruction that was fetched (log 10). -/
def advance (n : Nat) (s : State) : State := { s with pc := s.pc + BitVec.ofNat 16 n }

/-- The code of a cause (spec/60_exceptions.md R151, D8). -/
def Cause.code : Cause → Nat
  | .outOfRangeAddress => 1
  | .valueOverflow => 2
  | .invalidOperand => 3
  | .invalidNumber => 4
  | .invalidOpcode => 5
  | .invalidRegisterTarget => 6
  | .stackUnderflow => 7
  | .divideByZero => 8

/-- The parts of the state that R163 leaves unspecified after a fault. -/
def residue (s : State) : Config.Residue := ⟨s.x, s.mem, s.stack, s.inq⟩

/-- The state FAULTED (R150, R160, R163): the record is written, status is FAULTED, `pc` stays at the faulting
instruction, the output stays. The rest is unspecified: the free value `Config.afterFault` of what the pseudocode had
written before the raise (D9, U6, log 3). -/
def faultState (opcode : Option Word) (r : Raise) (s : State) : State :=
  let left := Config.afterFault s.pc opcode r.cause.code r.info (residue s)
  { s with
    status := .faulted
    fault := some ⟨r.cause, s.pc, opcode, r.info⟩
    x := left.x
    mem := Memory.ofCells left.cells
    stack := left.stack
    inq := left.inq }

/-- TAKING A FAULT (R150): the one exceptional event of the machine. `opcode` is none only when the opcode fetch raised.
There is no handler and no return from a fault (R163, R164), so no operation stands beside this one. -/
def takeFault (opcode : Option Word) (r : Raise) (s : State) : Result := .next (faultState opcode r s)

end Sys2Proof.Machine
end

