-- ==== Sys2Proof/Machine/Operands.lean ====
section
/-! DEFINITION. The operand-resolution multiplexer (spec/40_execution_cycle.md R73 to R76) and the ways an instruction
ends that several instructions share. -/

namespace Sys2Proof.Machine

/-- `CheckNumber(n)` (R73): one level of resolution; a register's word is not checked again. -/
def checkNumber (n : Operand) (s : State) : Except Raise Word :=
  match n with
  | .lit k => .ok (k.setWidth 16)
  | .reg r => .ok (getReg r s)
  | .invalid w => .error ⟨.invalidNumber, w⟩

/-- `ReadFrom(x)` (R74). -/
def readFrom (x : Operand) (s : State) : Except Raise Word :=
  match x with
  | .lit k => memRead k.toNat s
  | .reg r => .ok (getReg r s)
  | .invalid w => .error ⟨.invalidOperand, w⟩

/-- `WriteTo(x, v)` (R75). -/
def writeTo (x : Operand) (v : Word) (s : State) : Except Raise State :=
  match x with
  | .lit k => memWrite k.toNat v s
  | .reg r => .ok (setReg r v s)
  | .invalid w => .error ⟨.invalidOperand, w⟩

/-- `CheckAddress(t)` (R76, D6, log 11): it passes or raises. -/
def checkAddress (t : Word) : Except Raise Unit :=
  if t.toNat > Config.numMax then .error ⟨.outOfRangeAddress, t⟩ else .ok ()

/-- A raise inside an instruction whose opcode is `op`. -/
def raiseIn (op : Opcode) (r : Raise) (s : State) : Result := takeFault (some op.word) r s

/-- The last two steps of R79 for an instruction with a destination: `WriteTo(a, v)`, then the advance of pc. -/
def storeAndAdvance (op : Opcode) (a : Operand) (v : Word) (s : State) : Result :=
  match writeTo a v s with
  | .error r => raiseIn op r s
  | .ok t => .next (advance op.length t)

/-- The shape of `eq gt add mult and or`: resolve b, resolve c, compute, write a, advance (R79). -/
def binaryOp (op : Opcode) (f : Word → Word → Word) (a b c : Operand) (s : State) : Result :=
  match checkNumber b s with
  | .error r => raiseIn op r s
  | .ok vb =>
    match checkNumber c s with
    | .error r => raiseIn op r s
    | .ok vc => storeAndAdvance op a (f vb vc) s

/-- A control transfer: `CheckAddress(t)`, then `pc <- t` with no default advance (R16, R76). -/
def transferTo (op : Opcode) (t : Word) (s : State) : Result :=
  match checkAddress t with
  | .error r => raiseIn op r s
  | .ok _ => .next (setPc t s)

/-- A jump to a target operand: `CheckNumber`, then the transfer (spec/30_encoding.md R53). -/
def jumpTo (op : Opcode) (a : Operand) (s : State) : Result :=
  match checkNumber a s with
  | .error r => raiseIn op r s
  | .ok t => transferTo op t s

end Sys2Proof.Machine
end

