-- ==== Sys2Proof/Machine/Arithmetic.lean ====
section
/-! DEFINITION. `add`, `mult`, `mod`, `and`, `or`, `not` (spec/44_arithmetic_logic.md). -/

namespace Sys2Proof.Machine

/-- R120 -/
def execAdd (a b c : Operand) (s : State) : Result := binaryOp .add aluAdd a b c s

/-- R121 -/
def execMult (a b c : Operand) (s : State) : Result := binaryOp .mult aluMult a b c s

/-- R122: a zero divisor faults after both operands are resolved and before the destination is looked at; the value
reported is the word c (D12, log 13). -/
def execMod (a b c : Operand) (s : State) : Result :=
  match checkNumber b s with
  | .error e => raiseIn .mod e s
  | .ok vb =>
    match checkNumber c s with
    | .error e => raiseIn .mod e s
    | .ok vc =>
      if vc = 0 then raiseIn .mod ⟨.divideByZero, c.toWord⟩ s
      else storeAndAdvance .mod a (aluMod vb vc) s

/-- R123 -/
def execAnd (a b c : Operand) (s : State) : Result := binaryOp .and aluAnd a b c s

/-- R124 -/
def execOr (a b c : Operand) (s : State) : Result := binaryOp .or aluOr a b c s

/-- R125 -/
def execNot (a b : Operand) (s : State) : Result :=
  match checkNumber b s with
  | .error e => raiseIn .not e s
  | .ok vb => storeAndAdvance .not a (aluNot vb) s

end Sys2Proof.Machine
end

