-- ==== Sys2Proof/Machine/Compare.lean ====
section
/-! DEFINITION. `eq`, `gt` (spec/42_compare.md). -/

namespace Sys2Proof.Machine

/-- R100 -/
def execEq (a b c : Operand) (s : State) : Result := binaryOp .eq aluEq a b c s

/-- R101 -/
def execGt (a b c : Operand) (s : State) : Result := binaryOp .gt aluGt a b c s

end Sys2Proof.Machine
end

