-- ==== Sys2Proof/Machine/ControlFlow.lean ====
section
/-! DEFINITION. `halt`, `jmp`, `jt`, `jf`, `call`, `ret`, `noop` (spec/43_control_flow.md). -/

namespace Sys2Proof.Machine

/-- R105: pc is not changed. -/
def execHalt (s : State) : Result := .next (setHalted s)

/-- R106 -/
def execJmp (a : Operand) (s : State) : Result := jumpTo .jmp a s

/-- R107: b is resolved and checked only when the jump is taken (D15, log 15). -/
def execJt (a b : Operand) (s : State) : Result :=
  match checkNumber a s with
  | .error e => raiseIn .jt e s
  | .ok va => if va ≠ 0 then jumpTo .jt b s else .next (advance Opcode.jt.length s)

/-- R108: b is resolved and checked only when the jump is taken (D15, log 15). -/
def execJf (a b : Operand) (s : State) : Result :=
  match checkNumber a s with
  | .error e => raiseIn .jf e s
  | .ok va => if va = 0 then jumpTo .jf b s else .next (advance Opcode.jf.length s)

/-- R109: `pc + 2` is pushed before the target is resolved (D14, log 12). -/
def execCall (a : Operand) (s : State) : Result :=
  pushThen Config.stackDepth (s.pc + BitVec.ofNat 16 Opcode.call.length) s fun t => jumpTo .call a t

/-- R110: on an empty stack the core halts with pc unchanged and no fault (D16 for the pc, log 16). -/
def execRet (s : State) : Result :=
  match pop s with
  | none => .next (setHalted s)
  | some (t, u) => transferTo .ret t u

/-- R111 -/
def execNoop (s : State) : Result := .next (advance Opcode.noop.length s)

end Sys2Proof.Machine
end

