-- ==== Sys2Proof/Machine/InputOutput.lean ====
section
/-! DEFINITION. `out`, `in` and the two interfaces they drive (spec/46_io.md). -/

namespace Sys2Proof.Machine

/-- `Emit(v)` (R143): the whole 16-bit value is appended (D18, log 18). -/
def emit (v : Word) (s : State) : State := { s with out := s.out ++ [v] }

/-- R140 -/
def execOut (a : Operand) (s : State) : Result :=
  match checkNumber a s with
  | .error e => raiseIn .out e s
  | .ok v => .next (advance Opcode.out.length (emit v s))

/-- R141, the core's two transitions: on an empty queue the core waits, with pc still at the `in`; else the head of the
queue is removed and written (D28: the destination is looked at only then, log 12). -/
def execIn (a : Operand) (s : State) : Result :=
  match s.inq with
  | [] => .next (setWaiting s)
  | k :: rest => storeAndAdvance .inp a k { s with inq := rest }

/-- The host's move (R141, R142): in WAIT_INPUT, and only there, one line is enqueued with a newline after it and the
core runs on. -/
def hostDeliver (line : List Word) (s : State) : Result :=
  match s.status with
  | .waitInput => .next { s with inq := line ++ [Config.newline], status := .running }
  | .running => .refused .lineNotRequested
  | .halted => .refused .lineNotRequested
  | .faulted => .refused .lineNotRequested

/-- What happens in WAIT_INPUT: the host's next line is delivered; with no line the core stays as it is
(R144, U12, log 9). -/
def awaitLine (s : State) : Result :=
  match s.hostLines with
  | [] => .next s
  | line :: more => hostDeliver line { s with hostLines := more }

end Sys2Proof.Machine
end

