-- ==== Sys2Proof/Machine/MemoryAccess.lean ====
section
/-! DEFINITION. `rmem`, `wmem` (spec/45_memory_access.md). -/

namespace Sys2Proof.Machine

/-- R135: the resolved address is itself given to `ReadFrom`. -/
def execRmem (a b : Operand) (s : State) : Result :=
  match checkNumber b s with
  | .error e => raiseIn .rmem e s
  | .ok t =>
    match readFrom (.ofWord t) s with
    | .error e => raiseIn .rmem e s
    | .ok v => storeAndAdvance .rmem a v s

/-- R136: a is resolved as a value and the result is given to `WriteTo`. -/
def execWmem (a b : Operand) (s : State) : Result :=
  match checkNumber a s with
  | .error e => raiseIn .wmem e s
  | .ok t =>
    match checkNumber b s with
    | .error e => raiseIn .wmem e s
    | .ok v => storeAndAdvance .wmem (.ofWord t) v s

end Sys2Proof.Machine
end

