-- ==== Sys2Proof/Machine/MoveStack.lean ====
section
/-! DEFINITION. `set`, `push`, `pop` (spec/41_move_stack.md). -/

namespace Sys2Proof.Machine

/-- R90: a is checked before b (D24, log 12). -/
def execSet (a b : Operand) (s : State) : Result :=
  match a with
  | .reg r =>
    match checkNumber b s with
    | .error e => raiseIn .set e s
    | .ok v => .next (advance Opcode.set.length (setReg r v s))
  | .lit n => raiseIn .set ⟨.invalidRegisterTarget, (Operand.lit n).toWord⟩ s
  | .invalid w => raiseIn .set ⟨.invalidRegisterTarget, w⟩ s

/-- R91 -/
def execPush (a : Operand) (s : State) : Result :=
  match checkNumber a s with
  | .error e => raiseIn .push e s
  | .ok v => pushThen Config.stackDepth v s fun t => .next (advance Opcode.push.length t)

/-- R92: the stack is popped before the destination is written (D14, log 12). -/
def execPop (a : Operand) (s : State) : Result :=
  match pop s with
  | none => raiseIn .pop ⟨.stackUnderflow, a.toWord⟩ s
  | some (v, t) => storeAndAdvance .pop a v t

end Sys2Proof.Machine
end

