-- ==== Sys2Proof/Machine/Fetch.lean ====
section
/-! DEFINITION. Fetching an instruction (spec/40_execution_cycle.md R70 to R72). -/

namespace Sys2Proof.Machine

/-- A raise during the fetch, with the opcode word if it had been fetched (spec/60_exceptions.md R160). -/
structure FetchRaise where
  opcode : Option Word
  raise : Raise
  deriving DecidableEq, Repr

/-- `n` operand words from `addr` up, in that order (R72). -/
def fetchOperands : Nat → Nat → State → Except Raise (List Word)
  | 0, _, _ => .ok []
  | n + 1, addr, s =>
    match memRead addr s with
    | .error r => .error r
    | .ok w =>
      match fetchOperands n (addr + 1) s with
      | .error r => .error r
      | .ok ws => .ok (w :: ws)

/-- The opcode word, its check, then all operand words, each by `MemRead` (R70 to R72). The addresses are not reduced
(spec/10_state.md R17). -/
def fetchInstr (s : State) : Except FetchRaise Instr :=
  match memRead s.pc.toNat s with
  | .error r => .error ⟨none, r⟩
  | .ok w =>
    match Opcode.ofWord w with
    | none => .error ⟨some w, .invalidOpcode, w⟩
    | some op =>
      match fetchOperands (op.length - 1) (s.pc.toNat + 1) s with
      | .error r => .error ⟨some w, r⟩
      | .ok ws =>
        match op.decodeOperands ws with
        | .ok (i, _) => .ok i
        | .error _ => .error ⟨some w, .invalidOpcode, w⟩

/-- The words put into memory from address `a` up. -/
def storeWords : Nat → List Word → Memory → Memory
  | _, [], m => m
  | a, w :: ws, m => storeWords (a + 1) ws (m.write a w)

/-- The address an instruction of the longest format can be placed at so that the next fetch finds it: pc where all
four words lie inside memory, else 0 (log 26). -/
def placeAt (s : State) : Word := if s.pc.toNat + 3 ≤ Config.numMax then s.pc else 0

end Sys2Proof.Machine
end

