-- ==== Sys2Proof/Machine/Step.lean ====
section
/-! DEFINITION. One step of the machine (spec/40_execution_cycle.md R70, R83). -/

namespace Sys2Proof.Machine

/-- R70: fetch, then execute; a raise of the fetch is a fault like any other. -/
def runInstr (s : State) : Result :=
  match fetchInstr s with
  | .error e => takeFault e.opcode e.raise s
  | .ok i => exec i s

/-- R83, R19: the core steps only in RUNNING; in WAIT_INPUT the host moves; HALTED and FAULTED have no step. -/
def step (s : State) : Host.Outcome State Fault Refusal :=
  match s.status with
  | .running => runInstr s
  | .waitInput => awaitLine s
  | .halted => .fault .coreHalted
  | .faulted => .fault .coreFaulted

/-- The instruction of `tableWords nbits w` placed where the very next step fetches it (log 26). -/
def State.withFetchWord (s : State) (nbits w : Nat) : State :=
  { s with
    status := .running
    pc := placeAt s
    mem := storeWords (placeAt s).toNat (tableWords nbits w) s.mem }

end Sys2Proof.Machine
end

