-- ==== Sys2Proof/Machine/Boot.lean ====
section
/-! DEFINITION. Reset with a program image (spec/70_reset_and_hazards.md R180, R181). -/

namespace Sys2Proof.Machine

/-- Reset with IMAGE (R180): word i of it goes to cell i, every other cell holds 0, and the rest of the state is as
`State.reset` has it. An IMAGE longer than memory is refused (D5, log 22). -/
def resetWith (image : List Word) : Result :=
  if image.length ≤ Config.memWords then .next { State.reset with mem := Memory.ofWordsAt 0 image }
  else .refused .imageTooLong

/-- The words of an image's bytes, low byte first (R62, R181). A last odd byte is the loader's business: no IMAGE then
(D5, log 22). -/
def imageOfBytes : List Byte → Option (List Word)
  | [] => some []
  | lo :: hi :: rest => (imageOfBytes rest).map (fun ws => (hi ++ lo) :: ws)
  | [_] => none

end Sys2Proof.Machine
end

