-- ==== Sys2Proof/Safety.lean ====
section
/-! DEFINITION. The terms claims are stated in: what a run is and when it is safe, what a fault or a store amounts to as
seen through the model's reads, and the tables of the spec that speak of all instructions at once. -/

namespace Sys2Proof.Machine

/-- The states a run from `s` passes through: the core's steps and the host's deliveries. -/
inductive Reaches (s : State) : State → Prop where
  | here : Reaches s s
  | next {t u : State} : Reaches s t → step t = .next u → Reaches s u

/-- A safe run never comes to FAULTED (spec/60_exceptions.md R150, spec/70_reset_and_hazards.md R185). -/
def SafeFrom (s : State) : Prop := ∀ t, Reaches s t → t.status ≠ .faulted

/-- What holds of every state of a run: memory in canonical form; pc at most 32768 (spec/10_state.md R17); a fault record
exactly in FAULTED, with pc at the faulting instruction (R25, R160); in WAIT_INPUT the queue is empty and pc stands at
an `in` (R19, spec/40_execution_cycle.md R81). -/
structure State.Inv (s : State) : Prop where
  memWf : s.mem.wf
  pcBound : s.pc.toNat ≤ 32768
  recordIff : s.fault.isSome = true ↔ s.status = .faulted
  recordPc : ∀ f, s.fault = some f → f.pc = s.pc
  waitsAtIn : s.status = .waitInput → s.inq = [] ∧ ∃ a, fetchInstr s = .ok (.inp a)

/-- The outcome is a fault taken with this cause and this recorded value (R150, R151). -/
def FaultsWith (o : Result) (c : Cause) (v : Word) : Prop :=
  ∃ t f, o = .next t ∧ t.status = .faulted ∧ t.fault = some f ∧ f.cause = c ∧ f.value = v

/-- Every cell reads as before. -/
def SameMemory (s t : State) : Prop := ∀ k, t.mem.read k = s.mem.read k

/-- Every register reads as before. -/
def SameRegisters (s t : State) : Prop := ∀ q : Fin 8, t.x[q] = s.x[q]

/-- Memory and registers of `t` are those of `s` with `v` stored at the destination `a`: for a literal the cell of that
address and no other, for a register reference that register and no other (spec/40_execution_cycle.md R75). -/
def StoredAt (a : Operand) (v : Word) (s t : State) : Prop :=
  match a with
  | .lit n => t.mem.read n.toNat = v ∧ (∀ k, k ≠ n.toNat → t.mem.read k = s.mem.read k) ∧ SameRegisters s t
  | .reg r => t.x[r] = v ∧ (∀ q : Fin 8, q ≠ r → t.x[q] = s.x[q]) ∧ SameMemory s t
  | .invalid _ => False

/-- Output, status, fault record and the host's lines are as before. -/
def SameOutside (s t : State) : Prop :=
  t.out = s.out ∧ t.status = s.status ∧ t.fault = s.fault ∧ t.hostLines = s.hostLines

/-- Everything but memory, registers and pc is as before. -/
def SameButStore (s t : State) : Prop := t.stack = s.stack ∧ t.inq = s.inq ∧ SameOutside s t

/-- Everything but pc is as before. -/
def SameButPc (s t : State) : Prop := SameMemory s t ∧ SameRegisters s t ∧ SameButStore s t

/-- An instruction of the shape `op a b c` stores `f` of its two resolved values at `a`, advances pc by its 4 words and
changes nothing else, whatever valid operands it has. -/
def ComputesInto (mk : Operand → Operand → Operand → Instr) (f : Word → Word → Word) : Prop :=
  ∀ (s : State) (a b c : Operand) (vb vc : Word),
    checkNumber b s = .ok vb → checkNumber c s = .ok vc → a.valid = true →
      ∃ t, exec (mk a b c) s = .next t ∧ StoredAt a (f vb vc) s t ∧ t.pc = s.pc + 4 ∧ SameButStore s t

/-- The exceptions an instruction of the shape `op a b c` has from decoding one invalid operand word
(spec/44_arithmetic_logic.md, opening paragraph), the two other operands being valid. -/
def OperandFaults (mk : Operand → Operand → Operand → Instr) : Prop :=
  ∀ (s : State) (o p : Operand) (w : Word), o.valid = true → p.valid = true →
    FaultsWith (exec (mk o (.invalid w) p) s) .invalidNumber w ∧
    FaultsWith (exec (mk o p (.invalid w)) s) .invalidNumber w ∧
    FaultsWith (exec (mk (.invalid w) o p) s) .invalidOperand w

end Sys2Proof.Machine

namespace Sys2Proof

open Sys2Proof.Machine

/-- The place an instruction stores its result at: its destination operand (spec/20_memory.md R39), for `wmem` the word
its pointer operand resolves to (spec/45_memory_access.md R136), for `set` its register. -/
def Instr.target (i : Instr) (s : State) : Option Operand :=
  match i with
  | .set a _ => some a
  | .pop a => some a
  | .eq a _ _ => some a
  | .gt a _ _ => some a
  | .add a _ _ => some a
  | .mult a _ _ => some a
  | .mod a _ _ => some a
  | .and a _ _ => some a
  | .or a _ _ => some a
  | .not a _ => some a
  | .rmem a _ => some a
  | .inp a => some a
  | .wmem a _ =>
    match checkNumber a s with
    | .ok t => some (.ofWord t)
    | .error _ => none
  | .halt | .push _ | .jmp _ | .jt _ _ | .jf _ _ | .call _ | .ret | .out _ | .noop => none

/-- pc after an instruction that raised nothing (spec/10_state.md R16): `v` resolves a value operand. -/
def Instr.pcAfter (i : Instr) (v : Operand → Word) (s : State) : Word :=
  match i with
  | .halt => s.pc
  | .noop => s.pc + 1
  | .push _ | .pop _ | .out _ => s.pc + 2
  | .inp _ => if s.inq = [] then s.pc else s.pc + 2
  | .set _ _ | .not _ _ | .rmem _ _ | .wmem _ _ => s.pc + 3
  | .eq _ _ _ | .gt _ _ _ | .add _ _ _ | .mult _ _ _ | .mod _ _ _ | .and _ _ _ | .or _ _ _ => s.pc + 4
  | .jmp a | .call a => v a
  | .jt a b => if v a ≠ 0 then v b else s.pc + 3
  | .jf a b => if v a = 0 then v b else s.pc + 3
  | .ret => s.stack.getLast?.getD s.pc

/-- The causes each instruction can raise (spec/60_exceptions.md R166), beyond those of its fetch. -/
def Instr.causes : Instr → List Cause
  | .halt | .noop => []
  | .set _ _ => [.invalidRegisterTarget, .invalidNumber]
  | .push _ | .out _ => [.invalidNumber]
  | .pop _ => [.stackUnderflow, .invalidOperand]
  | .eq _ _ _ | .gt _ _ _ | .add _ _ _ | .mult _ _ _ | .and _ _ _ | .or _ _ _ | .not _ _ =>
    [.invalidNumber, .invalidOperand]
  | .mod _ _ _ => [.invalidNumber, .divideByZero, .invalidOperand]
  | .jmp _ | .jt _ _ | .jf _ _ | .call _ => [.invalidNumber, .outOfRangeAddress]
  | .ret => [.outOfRangeAddress]
  | .rmem _ _ | .wmem _ _ => [.invalidNumber, .invalidOperand]
  | .inp _ => [.invalidOperand]

end Sys2Proof
end

