-- ==== Sys2Proof/Certificates/Slice0/Obligations.lean ====
section
/-! DEFINITION. The statements for the provers. Each docstring names the rules of spec/ it formalises and, where it rests
on a decision of spec/92_eei_decisions.md (D<n>), that decision and its log entry. -/

open Sys2Proof Sys2Proof.Machine

/-! ### Encoding -/

/-- Decoding the words of any well-formed instruction, with anything after them, gives it back with every operand
(R50, R51, R52, R54, R55). -/
def Obligations.DecodeOfEncodeIsTheInstruction : Prop :=
  ∀ (i : Instr) (rest : List Word), i.wellFormed = true → decode (encode i ++ rest) = .ok (i, rest)

/-- The other direction: what is decoded from a list of words is well formed and its encoding is the words read, so
each word list has one meaning (R50 to R55). -/
def Obligations.DecodedWordsAreTheEncoding : Prop :=
  ∀ (ws rest : List Word) (i : Instr), decode ws = .ok (i, rest) → i.wellFormed = true ∧ ws = encode i ++ rest

/-- The three classes of an operand word by its bits (R52, whose bit patterns the spec derives). -/
def Obligations.OperandWordClassByBits : Prop :=
  ∀ w : Word,
    (w.getLsbD 15 = false → Operand.ofWord w = .lit (w.extractLsb' 0 15)) ∧
    (w.extractLsb' 3 13 = 0b1000000000000#13 → Operand.ofWord w = .reg (w.extractLsb' 0 3).toFin) ∧
    (w.getLsbD 15 = true → w.extractLsb' 3 12 ≠ 0 → Operand.ofWord w = .invalid w)

/-- Words written out from the spec's encodings, one or more of each family (R62 and the words of
spec/95_test_vectors.md). -/
def Obligations.SpecWordsDecode : Prop :=
  decode [9, 32768, 4, 4] = .ok (.add (.reg 0) (.lit 4) (.lit 4), []) ∧
  decode [19, 32768] = .ok (.out (.reg 0), []) ∧
  decode [0] = .ok (.halt, []) ∧
  decode [1, 32775, 32767] = .ok (.set (.reg 7) (.lit 32767), []) ∧
  decode [4, 100, 32768, 0] = .ok (.eq (.lit 100) (.reg 0) (.lit 0), []) ∧
  decode [7, 1, 40000] = .ok (.jt (.lit 1) (.invalid 40000), []) ∧
  decode [14, 32769, 32768] = .ok (.not (.reg 1) (.reg 0), []) ∧
  decode [16, 100, 32769] = .ok (.wmem (.lit 100) (.reg 1), []) ∧
  decode [20, 50] = .ok (.inp (.lit 50), []) ∧
  decode [22] = .error (.invalidOpcode 22)

/-- R56: every word 0 above 21 is illegal, is compared raw, and faults with the word recorded before any operand word is
looked at (nothing is assumed of the cells after it). -/
def Obligations.OpcodeAbove21IsInvalidOpcode : Prop :=
  ∀ s : State, s.status = .running → s.pc.toNat ≤ 32767 → 21 < (s.mem.read s.pc.toNat).toNat →
    FaultsWith (step s) .invalidOpcode (s.mem.read s.pc.toNat)

/-! ### The step -/

/-- R70, R72: when the words at pc decode to an instruction that lies wholly inside memory, the step is that
instruction's execution in that state. -/
def Obligations.StepRunsTheDecodedInstruction : Prop :=
  ∀ (s : State) (i : Instr) (rest : List Word), s.status = .running →
    decode ((List.range 4).map fun k => s.mem.read (s.pc.toNat + k)) = .ok (i, rest) →
    s.pc.toNat + i.length ≤ 32768 → step s = exec i s

/-- R17, R59, R71, R72 (decisions D10 and D26, logs 10 and 12): a fetch off the top of memory faults, with pc and output
kept. With pc above 32767 the record has no opcode; an instruction that would end beyond address 32767 faults at
address 32768. Nothing is said of registers, memory, stack and queue, which are free after a fault (D9, log 3). -/
def Obligations.FetchOffTheTopFaults : Prop :=
  ∀ s : State, s.status = .running →
    (32767 < s.pc.toNat →
      ∃ t, step s = .next t ∧ t.status = .faulted ∧ t.pc = s.pc ∧ t.out = s.out ∧
        t.fault = some ⟨.outOfRangeAddress, s.pc, none, s.pc⟩) ∧
    (∀ op, s.pc.toNat ≤ 32767 → Opcode.ofWord (s.mem.read s.pc.toNat) = some op →
      32768 < s.pc.toNat + op.length →
      ∃ t, step s = .next t ∧ t.status = .faulted ∧ t.pc = s.pc ∧ t.out = s.out ∧
        t.fault = some ⟨.outOfRangeAddress, s.pc, some (s.mem.read s.pc.toNat), 32768⟩)

/-- R83: in HALTED and FAULTED the core has no step. That `step` then answers these two stop reasons is the model's
choice (log 2). -/
def Obligations.StoppedCoreHasNoStep : Prop :=
  ∀ s : State, (s.status = .halted → step s = .fault .coreHalted) ∧
    (s.status = .faulted → step s = .fault .coreFaulted)

/-- R141 transition (2), R142, R144 (decisions D19, D20, logs 6, 8, 9): in WAIT_INPUT the host's next line is enqueued with
a newline and the core runs on, everything else kept; with no line the core stays as it is; outside WAIT_INPUT no line
is taken. -/
def Obligations.LineIsDeliveredOnlyWhenAskedFor : Prop :=
  (∀ (s : State) (line : List Word) (more : List (List Word)), s.status = .waitInput →
    s.hostLines = line :: more →
    step s = .next { s with inq := line ++ [Config.newline], status := .running, hostLines := more }) ∧
  (∀ s : State, s.status = .waitInput → s.hostLines = [] → step s = .next s) ∧
  (∀ (s : State) (line : List Word), s.status ≠ .waitInput → hostDeliver line s = .refused .lineNotRequested)

/-! ### The operand primitives -/

/-- R73: a literal is itself, a register reference gives the register's word as it stands, any other word raises
`InvalidNumber`; memory is not read. -/
def Obligations.CheckNumberResolvesOneLevel : Prop :=
  ∀ (s : State) (w : Word),
    (w.toNat ≤ 32767 → checkNumber (.ofWord w) s = .ok w) ∧
    (∀ r : Fin 8, w.toNat = 32768 + r.val → checkNumber (.ofWord w) s = .ok s.x[r]) ∧
    (32775 < w.toNat → checkNumber (.ofWord w) s = .error ⟨.invalidNumber, w⟩) ∧
    ∀ m : Memory, checkNumber (.ofWord w) { s with mem := m } = checkNumber (.ofWord w) s

/-- R74: a literal is an address to load from. -/
def Obligations.ReadFromReadsThePlace : Prop :=
  ∀ (s : State) (w : Word),
    (w.toNat ≤ 32767 → readFrom (.ofWord w) s = .ok (s.mem.read w.toNat)) ∧
    (∀ r : Fin 8, w.toNat = 32768 + r.val → readFrom (.ofWord w) s = .ok s.x[r]) ∧
    (32775 < w.toNat → readFrom (.ofWord w) s = .error ⟨.invalidOperand, w⟩)

/-- R75: a literal is an address to store to, a register takes any 16-bit value, and nothing else changes. -/
def Obligations.WriteToWritesThePlace : Prop :=
  ∀ (s : State) (w v : Word),
    (w.toNat ≤ 32767 → ∃ t, writeTo (.ofWord w) v s = .ok t ∧ t.mem.read w.toNat = v ∧
      (∀ k, k ≠ w.toNat → t.mem.read k = s.mem.read k) ∧ SameRegisters s t ∧ t.pc = s.pc ∧ SameButStore s t) ∧
    (∀ r : Fin 8, w.toNat = 32768 + r.val → ∃ t, writeTo (.ofWord w) v s = .ok t ∧ t.x[r] = v ∧
      (∀ q : Fin 8, q ≠ r → t.x[q] = s.x[q]) ∧ SameMemory s t ∧ t.pc = s.pc ∧ SameButStore s t) ∧
    (32775 < w.toNat → writeTo (.ofWord w) v s = .error ⟨.invalidOperand, w⟩)

/-- R31: inside memory the word as stored, outside it `OutOfRangeAddress`. The state is not changed: the read answers a
word only. -/
def Obligations.MemReadChecksOnlyTheAddress : Prop :=
  ∀ (s : State) (a : Nat),
    (a ≤ 32767 → memRead a s = .ok (s.mem.read a)) ∧
    (32767 < a → memRead a s = .error ⟨.outOfRangeAddress, BitVec.ofNat 16 a⟩)

/-- R32, R33 (the last sentence of R33 is the spec's inference): a write of any 16-bit value is read back, no other
address reads differently, nothing but memory changes; outside memory both fail. -/
def Obligations.MemWriteThenMemReadReturnsTheValue : Prop :=
  ∀ (s : State) (a : Nat) (v : Word),
    (a ≤ 32767 → ∃ t, memWrite a v s = .ok t ∧ memRead a t = .ok v ∧
      (∀ b, b ≠ a → memRead b t = memRead b s) ∧ SameRegisters s t ∧ t.pc = s.pc ∧ SameButStore s t) ∧
    (32767 < a → memWrite a v s = .error ⟨.outOfRangeAddress, BitVec.ofNat 16 a⟩ ∧
      memRead a s = .error ⟨.outOfRangeAddress, BitVec.ofNat 16 a⟩)

/-! ### The instructions -/

/-- R105: `halt` sets the flag and changes nothing else, pc included; no step follows; a cell the image did not fill
holds 0, which is a `halt`. -/
def Obligations.HaltStopsTheCore : Prop :=
  (∀ s : State, ∃ t, exec .halt s = .next t ∧ t.halted = true ∧ t = { s with status := .halted }) ∧
  (∀ s t u : State, exec .halt s = .next t → step t ≠ .next u) ∧
  decode [0] = .ok (.halt, []) ∧
  (∀ (image : List Word) (s : State) (k : Nat), resetWith image = .next s → image.length ≤ k → s.mem.read k = 0)

/-- R90 (decision D24 for the order of the two checks, log 12). -/
def Obligations.SetCopiesAValueIntoARegister : Prop :=
  (∀ (s : State) (r : Fin 8) (b : Operand) (v : Word), checkNumber b s = .ok v →
    ∃ t, exec (.set (.reg r) b) s = .next t ∧ StoredAt (.reg r) v s t ∧ t.pc = s.pc + 3 ∧ SameButStore s t) ∧
  (∀ (s : State) (a b : Operand), a.isReg = false →
    FaultsWith (exec (.set a b) s) .invalidRegisterTarget a.toWord) ∧
  (∀ (s : State) (r : Fin 8) (w : Word), FaultsWith (exec (.set (.reg r) (.invalid w)) s) .invalidNumber w)

/-- R91 (that it never overflows is decision D17, log 17). -/
def Obligations.PushPutsAValueOnTheStack : Prop :=
  (∀ (s : State) (a : Operand) (v : Word), checkNumber a s = .ok v →
    ∃ t, exec (.push a) s = .next t ∧ t.stack = s.stack ++ [v] ∧ t.pc = s.pc + 2 ∧
      SameMemory s t ∧ SameRegisters s t ∧ t.inq = s.inq ∧ SameOutside s t) ∧
  (∀ (s : State) (w : Word), FaultsWith (exec (.push (.invalid w)) s) .invalidNumber w)

/-- R92 (decisions D11 and D14, logs 13 and 12): the top leaves the stack and is stored; an empty stack is
`StackUnderflow` whatever the destination. -/
def Obligations.PopStoresTheTopOfTheStack : Prop :=
  (∀ (s : State) (a : Operand) (l : List Word) (v : Word), s.stack = l ++ [v] → a.valid = true →
    ∃ t, exec (.pop a) s = .next t ∧ StoredAt a v s t ∧ t.stack = l ∧ t.pc = s.pc + 2 ∧
      t.inq = s.inq ∧ SameOutside s t) ∧
  (∀ (s : State) (a : Operand), s.stack = [] → FaultsWith (exec (.pop a) s) .stackUnderflow a.toWord) ∧
  (∀ (s : State) (w : Word), s.stack ≠ [] → FaultsWith (exec (.pop (.invalid w)) s) .invalidOperand w)

/-- R100 (decision D13: all 16 bits are compared, log 14). -/
def Obligations.EqStoresOneIffEqual : Prop :=
  ComputesInto .eq (fun b c => if b.toNat = c.toNat then 1 else 0) ∧ OperandFaults .eq

/-- R101 (decision D13: all 16 bits, unsigned, log 14). -/
def Obligations.GtStoresOneIffGreater : Prop :=
  ComputesInto .gt (fun b c => if c.toNat < b.toNat then 1 else 0) ∧ OperandFaults .gt

/-- R106 (decision D6 for the target check, log 11). -/
def Obligations.JmpGoesToTheTarget : Prop :=
  (∀ (s : State) (a : Operand) (t : Word), checkNumber a s = .ok t →
    (t.toNat ≤ 32767 → ∃ u, exec (.jmp a) s = .next u ∧ u.pc = t ∧ SameButPc s u) ∧
    (32767 < t.toNat → FaultsWith (exec (.jmp a) s) .outOfRangeAddress t)) ∧
  (∀ (s : State) (w : Word), FaultsWith (exec (.jmp (.invalid w)) s) .invalidNumber w)

/-- R107 (decisions D13 and D15, logs 14 and 15): taken when the whole word is not zero; not taken, b is not looked at. -/
def Obligations.JtJumpsWhenNotZero : Prop :=
  (∀ (s : State) (a b : Operand) (va t : Word), checkNumber a s = .ok va → va ≠ 0 → checkNumber b s = .ok t →
    (t.toNat ≤ 32767 → ∃ u, exec (.jt a b) s = .next u ∧ u.pc = t ∧ SameButPc s u) ∧
    (32767 < t.toNat → FaultsWith (exec (.jt a b) s) .outOfRangeAddress t)) ∧
  (∀ (s : State) (a b : Operand), checkNumber a s = .ok 0 →
    ∃ u, exec (.jt a b) s = .next u ∧ u.pc = s.pc + 3 ∧ SameButPc s u) ∧
  (∀ (s : State) (b : Operand) (w : Word), FaultsWith (exec (.jt (.invalid w) b) s) .invalidNumber w) ∧
  (∀ (s : State) (a : Operand) (va w : Word), checkNumber a s = .ok va → va ≠ 0 →
    FaultsWith (exec (.jt a (.invalid w)) s) .invalidNumber w)

/-- R108 (decisions D13 and D15, logs 14 and 15). -/
def Obligations.JfJumpsWhenZero : Prop :=
  (∀ (s : State) (a b : Operand) (t : Word), checkNumber a s = .ok 0 → checkNumber b s = .ok t →
    (t.toNat ≤ 32767 → ∃ u, exec (.jf a b) s = .next u ∧ u.pc = t ∧ SameButPc s u) ∧
    (32767 < t.toNat → FaultsWith (exec (.jf a b) s) .outOfRangeAddress t)) ∧
  (∀ (s : State) (a b : Operand) (va : Word), checkNumber a s = .ok va → va ≠ 0 →
    ∃ u, exec (.jf a b) s = .next u ∧ u.pc = s.pc + 3 ∧ SameButPc s u) ∧
  (∀ (s : State) (b : Operand) (w : Word), FaultsWith (exec (.jf (.invalid w) b) s) .invalidNumber w) ∧
  (∀ (s : State) (a : Operand) (w : Word), checkNumber a s = .ok 0 →
    FaultsWith (exec (.jf a (.invalid w)) s) .invalidNumber w)

/-- R120: the exact sum reduced modulo 32768. -/
def Obligations.AddStoresTheSumModulo32768 : Prop :=
  ComputesInto .add (fun b c => BitVec.ofNat 16 ((b.toNat + c.toNat) % 32768)) ∧ OperandFaults .add

/-- R121: the exact product reduced modulo 32768. -/
def Obligations.MultStoresTheProductModulo32768 : Prop :=
  ComputesInto .mult (fun b c => BitVec.ofNat 16 (b.toNat * c.toNat % 32768)) ∧ OperandFaults .mult

/-- R122 (decision D12: a zero divisor faults, after both operands and before the destination, log 13; on resolved values
above 32767 decision D13, log 14; that an invalid value decides before the destination, decision D14, log 12). -/
def Obligations.ModStoresTheRemainder : Prop :=
  (∀ (s : State) (a b c : Operand) (vb vc : Word), checkNumber b s = .ok vb → checkNumber c s = .ok vc →
    (vc ≠ 0 → a.valid = true → ∃ t, exec (.mod a b c) s = .next t ∧
      StoredAt a (BitVec.ofNat 16 (vb.toNat % vc.toNat)) s t ∧ t.pc = s.pc + 4 ∧ SameButStore s t) ∧
    (vc = 0 → FaultsWith (exec (.mod a b c) s) .divideByZero c.toWord)) ∧
  (∀ (s : State) (a c : Operand) (w : Word), FaultsWith (exec (.mod a (.invalid w) c) s) .invalidNumber w) ∧
  (∀ (s : State) (a b : Operand) (w : Word), b.valid = true →
    FaultsWith (exec (.mod a b (.invalid w)) s) .invalidNumber w) ∧
  (∀ (s : State) (b c : Operand) (vc w : Word), b.valid = true → checkNumber c s = .ok vc → vc ≠ 0 →
    FaultsWith (exec (.mod (.invalid w) b c) s) .invalidOperand w)

/-- R123 (on values above 32767 decision D13, log 14): the bitwise and of all 16 bits. -/
def Obligations.AndStoresTheBitwiseAnd : Prop := ComputesInto .and (fun b c => b &&& c) ∧ OperandFaults .and

/-- R124 (on values above 32767 decision D13, log 14): the bitwise or of all 16 bits. -/
def Obligations.OrStoresTheBitwiseOr : Prop := ComputesInto .or (fun b c => b ||| c) ∧ OperandFaults .or

/-- R125 (on values above 32767 decision D13, log 14; that an invalid value decides before the destination, decision D14,
log 12): bits 14 to 0 are flipped, bit 15 passes through. -/
def Obligations.NotFlipsTheLow15Bits : Prop :=
  (∀ (s : State) (a b : Operand) (vb : Word), checkNumber b s = .ok vb → a.valid = true →
    ∃ (t : State) (r : Word), exec (.not a b) s = .next t ∧ StoredAt a r s t ∧
      (∀ k, k < 15 → r.getLsbD k = !(vb.getLsbD k)) ∧ r.getLsbD 15 = vb.getLsbD 15 ∧
      t.pc = s.pc + 3 ∧ SameButStore s t) ∧
  (∀ (s : State) (a : Operand) (w : Word), FaultsWith (exec (.not a (.invalid w)) s) .invalidNumber w) ∧
  (∀ (s : State) (b : Operand) (w : Word), b.valid = true →
    FaultsWith (exec (.not (.invalid w) b) s) .invalidOperand w)

/-- R135: the word at the resolved address is stored as it is; an address that names a register reads that register. Which
of two faults comes first is decision D14 (log 12), stated in `TheFirstRaiseWins`. -/
def Obligations.RmemLoadsThroughThePointer : Prop :=
  (∀ (s : State) (a b : Operand) (t : Word), checkNumber b s = .ok t → a.valid = true →
    (t.toNat ≤ 32767 → ∃ u, exec (.rmem a b) s = .next u ∧ StoredAt a (s.mem.read t.toNat) s u ∧
      u.pc = s.pc + 3 ∧ SameButStore s u) ∧
    (∀ r : Fin 8, t.toNat = 32768 + r.val → ∃ u, exec (.rmem a b) s = .next u ∧ StoredAt a s.x[r] s u ∧
      u.pc = s.pc + 3 ∧ SameButStore s u) ∧
    (32775 < t.toNat → FaultsWith (exec (.rmem a b) s) .invalidOperand t)) ∧
  (∀ (s : State) (a : Operand) (w : Word), a.valid = true →
    FaultsWith (exec (.rmem a (.invalid w)) s) .invalidNumber w) ∧
  (∀ (s : State) (b : Operand) (t w : Word), checkNumber b s = .ok t → t.toNat ≤ 32775 →
    FaultsWith (exec (.rmem (.invalid w) b) s) .invalidOperand w)

/-- R136: the value of b is stored at the address a resolves to; the register that gave the address is not written
unless it is itself the place. Which of two faults comes first is decision D14 (log 12), stated in `TheFirstRaiseWins`. -/
def Obligations.WmemStoresThroughThePointer : Prop :=
  (∀ (s : State) (a b : Operand) (t v : Word), checkNumber a s = .ok t → checkNumber b s = .ok v →
    (t.toNat ≤ 32767 → ∃ u, exec (.wmem a b) s = .next u ∧ u.mem.read t.toNat = v ∧
      (∀ k, k ≠ t.toNat → u.mem.read k = s.mem.read k) ∧ SameRegisters s u ∧ u.pc = s.pc + 3 ∧ SameButStore s u) ∧
    (∀ r : Fin 8, t.toNat = 32768 + r.val → ∃ u, exec (.wmem a b) s = .next u ∧ u.x[r] = v ∧
      (∀ q : Fin 8, q ≠ r → u.x[q] = s.x[q]) ∧ SameMemory s u ∧ u.pc = s.pc + 3 ∧ SameButStore s u) ∧
    (32775 < t.toNat → FaultsWith (exec (.wmem a b) s) .invalidOperand t)) ∧
  (∀ (s : State) (b : Operand) (w : Word), b.valid = true →
    FaultsWith (exec (.wmem (.invalid w) b) s) .invalidNumber w) ∧
  (∀ (s : State) (a : Operand) (w : Word), a.valid = true →
    FaultsWith (exec (.wmem a (.invalid w)) s) .invalidNumber w)

/-- R109 (decision D6 for the target check, D17 for the unbounded stack, logs 11 and 17): pc + 2 is pushed and the target
taken. -/
def Obligations.CallPushesTheReturnAddress : Prop :=
  (∀ (s : State) (a : Operand) (t : Word), checkNumber a s = .ok t →
    (t.toNat ≤ 32767 → ∃ u, exec (.call a) s = .next u ∧ u.pc = t ∧ u.stack = s.stack ++ [s.pc + 2] ∧
      SameMemory s u ∧ SameRegisters s u ∧ u.inq = s.inq ∧ SameOutside s u) ∧
    (32767 < t.toNat → FaultsWith (exec (.call a) s) .outOfRangeAddress t)) ∧
  (∀ (s : State) (w : Word), FaultsWith (exec (.call (.invalid w)) s) .invalidNumber w)

/-- R110 (decision D6 for the target check and D16 for the pc on an empty stack, logs 11 and 16). -/
def Obligations.RetJumpsToThePoppedAddress : Prop :=
  (∀ (s : State) (l : List Word) (t : Word), s.stack = l ++ [t] →
    (t.toNat ≤ 32767 → ∃ u, exec .ret s = .next u ∧ u.pc = t ∧ u.stack = l ∧
      SameMemory s u ∧ SameRegisters s u ∧ u.inq = s.inq ∧ SameOutside s u) ∧
    (32767 < t.toNat → FaultsWith (exec .ret s) .outOfRangeAddress t)) ∧
  (∀ s : State, s.stack = [] → exec .ret s = .next { s with status := .halted })

/-- R165: `ret` on an empty stack halts and is no fault: no record is written. -/
def Obligations.RetOnEmptyStackHaltsWithoutFault : Prop :=
  ∀ s : State, s.stack = [] →
    ∃ t, exec .ret s = .next t ∧ t.halted = true ∧ t.status = .halted ∧ t.fault = s.fault

/-- R140 (for a value above 255 decision D18, log 18): the resolved value is emitted as it is. -/
def Obligations.OutEmitsTheValue : Prop :=
  (∀ (s : State) (a : Operand) (v : Word), checkNumber a s = .ok v →
    ∃ t, exec (.out a) s = .next t ∧ t.out = s.out ++ [v] ∧ t.pc = s.pc + 2 ∧ SameMemory s t ∧
      SameRegisters s t ∧ t.stack = s.stack ∧ t.inq = s.inq ∧ t.status = s.status ∧ t.fault = s.fault ∧
      t.hostLines = s.hostLines) ∧
  (∀ (s : State) (w : Word), FaultsWith (exec (.out (.invalid w)) s) .invalidNumber w)

/-- R141 transition (3) (decision D28 for an invalid destination, log 12). -/
def Obligations.InStoresTheHeadOfTheQueue : Prop :=
  (∀ (s : State) (a : Operand) (k : Word) (rest : List Word), s.inq = k :: rest → a.valid = true →
    ∃ t, exec (.inp a) s = .next t ∧ StoredAt a k s t ∧ t.inq = rest ∧ t.pc = s.pc + 2 ∧
      t.stack = s.stack ∧ SameOutside s t) ∧
  (∀ (s : State) (w : Word), s.inq ≠ [] → FaultsWith (exec (.inp (.invalid w)) s) .invalidOperand w)

/-- R141 transition (1) (decision D28: for any destination word, log 12). -/
def Obligations.InWaitsOnAnEmptyQueue : Prop :=
  ∀ (s : State) (a : Operand), s.inq = [] → exec (.inp a) s = .next { s with status := .waitInput }

/-- R111 (its corner case at address 32767 rests on decision D10, log 10). -/
def Obligations.NoopOnlyAdvances : Prop :=
  (∀ s : State, ∃ t, exec .noop s = .next t ∧ t.pc = s.pc + 1 ∧ SameButPc s t) ∧
  (∀ s t : State, s.status = .running → s.pc = 32767 → exec .noop s = .next t →
    FaultsWith (step t) .outOfRangeAddress 32768)

/-! ### Laws of single operations -/

/-- R128 (the extension to all 16-bit inputs is the spec's inference). -/
def Obligations.SumsAndProductsStayBelow32768AndNotIsAnInvolution : Prop :=
  (∀ b c : Word, (aluAdd b c).toNat ≤ 32767 ∧ (aluMult b c).toNat ≤ 32767) ∧
  (∀ x : Word, aluNot (aluNot x) = x)

/-- R93 (the spec's inference; that the push succeeds on every stack is decision D17, log 17): `push v` then `pop d` leaves
the stack as it was and stores the value at d. -/
def Obligations.PushThenPopMovesTheValue : Prop :=
  ∀ (s : State) (a d : Operand) (v : Word), checkNumber a s = .ok v → d.valid = true →
    ∃ t u, exec (.push a) s = .next t ∧ exec (.pop d) t = .next u ∧ u.stack = s.stack ∧ StoredAt d v s u

/-- R112 (the spec's inference; that the push of the `call` succeeds on every stack is decision D17, log 17): a `ret`
executed directly in the state a `call` left comes back behind the call. A `ret` after a body that restored the stack is
left to `RetJumpsToThePoppedAddress`, and a `call` at 32766, whose return address is no address, to that statement and
`CallPushesTheReturnAddress`. -/
def Obligations.RetReturnsBehindTheCall : Prop :=
  ∀ (s : State) (a : Operand) (t : Word), checkNumber a s = .ok t → t.toNat ≤ 32767 → (s.pc + 2).toNat ≤ 32767 →
    ∃ u v, exec (.call a) s = .next u ∧ exec .ret u = .next v ∧ v.pc = s.pc + 2 ∧ v.stack = s.stack ∧
      SameMemory s v ∧ SameRegisters s v

/-- R42 (the spec's inference, decision D25, log 21): a store into code is seen by the very next fetch: the stored word
is what the next opcode fetch finds. -/
def Obligations.StoreIntoCodeIsSeenByTheNextFetch : Prop :=
  ∀ (s : State) (b : Operand) (v : Word) (n : BitVec 15), checkNumber b s = .ok v → s.status = .running →
    s.pc.toNat + 3 = n.toNat →
    ∃ t, exec (.wmem (.lit n) b) s = .next t ∧
      (v.toNat = 21 → step t = .next { t with pc := t.pc + 1 }) ∧
      (v.toNat = 0 → step t = .next { t with status := .halted }) ∧
      (21 < v.toNat → FaultsWith (step t) .invalidOpcode v)

/-- R79, R161 (decisions D14 and D24 for the order, D11 and D12 for the two named faults, logs 12 and 13): of two faults of
one execution that apply, the one the pseudocode reaches first is taken. Whatever the later operands and the destination
are: for the shape `op a b c` an invalid b, then an invalid c, then for `mod` the zero divisor, then the destination; for
`not` and `rmem` an invalid b, for `rmem` then the resolved address, then the destination; for `wmem` an invalid a, then
an invalid b, then the resolved address; for `jt` and `jf` an invalid a, then the target; for `set` the register target,
then the value; for `pop` the empty stack, then the destination. -/
def Obligations.TheFirstRaiseWins : Prop :=
  (∀ mk ∈ [Instr.eq, .gt, .add, .mult, .mod, .and, .or], ∀ (s : State) (a b c : Operand) (w : Word),
    FaultsWith (exec (mk a (.invalid w) c) s) .invalidNumber w ∧
    (b.valid = true → FaultsWith (exec (mk a b (.invalid w)) s) .invalidNumber w)) ∧
  (∀ (s : State) (a b c : Operand), b.valid = true → checkNumber c s = .ok 0 →
    FaultsWith (exec (.mod a b c) s) .divideByZero c.toWord) ∧
  (∀ (s : State) (a : Operand) (w : Word),
    FaultsWith (exec (.not a (.invalid w)) s) .invalidNumber w ∧
    FaultsWith (exec (.rmem a (.invalid w)) s) .invalidNumber w) ∧
  (∀ (s : State) (a b : Operand) (t : Word), checkNumber b s = .ok t → 32775 < t.toNat →
    FaultsWith (exec (.rmem a b) s) .invalidOperand t) ∧
  (∀ (s : State) (a b : Operand) (w : Word),
    FaultsWith (exec (.wmem (.invalid w) b) s) .invalidNumber w ∧
    (a.valid = true → FaultsWith (exec (.wmem a (.invalid w)) s) .invalidNumber w)) ∧
  (∀ (s : State) (b : Operand) (w : Word),
    FaultsWith (exec (.jt (.invalid w) b) s) .invalidNumber w ∧
    FaultsWith (exec (.jf (.invalid w) b) s) .invalidNumber w) ∧
  (∀ (s : State) (a b : Operand), a.isReg = false →
    FaultsWith (exec (.set a b) s) .invalidRegisterTarget a.toWord) ∧
  (∀ (s : State) (a : Operand), s.stack = [] → FaultsWith (exec (.pop a) s) .stackUnderflow a.toWord)

/-! ### Whole-machine rules -/

/-- R83 (at the default STACK_DEPTH, decision D17, log 17): in every state every instruction answers a next state: it
completes, halts, waits or has taken a fault. -/
def Obligations.EveryInstructionAnswersANextState : Prop :=
  ∀ (i : Instr) (s : State), ∃ t, exec i s = .next t ∧
    (t.status = s.status ∨ t.status = .halted ∨ (t.status = .waitInput ∧ t.pc = s.pc) ∨
      (t.status = .faulted ∧ t.pc = s.pc))

/-- R160, R163 (decision D8 for the record's layout, log 24; for a jump, call or ret to a target out of range decision D6,
which has it fault at the jump, log 11): a fault taken by an instruction records the address of its opcode word and the
opcode, leaves pc there, keeps the output and the host's lines. Nothing is said of the rest (D9, log 3). -/
def Obligations.FaultEntryRecordsPcAndOpcode : Prop :=
  ∀ (i : Instr) (s t : State), s.status ≠ .faulted → exec i s = .next t → t.status = .faulted →
    t.pc = s.pc ∧ t.out = s.out ∧ t.hostLines = s.hostLines ∧
      ∃ f, t.fault = some f ∧ f.pc = s.pc ∧ f.opcode = some i.opcode.word

/-- R150: a step that ends in FAULTED has written the record, has not halted, and no step follows it. -/
def Obligations.EveryFaultIsFatal : Prop :=
  ∀ s t : State, step s = .next t → t.status = .faulted →
    t.halted = false ∧ (∃ f, t.fault = some f) ∧ ∀ u, step t ≠ .next u

/-- R166 (the spec's inference; the rows rest on decisions D6, D11, D12, D23, logs 11, 13, 20): an instruction takes no fault
but those its row lists. -/
def Obligations.OnlyTheListedCausesAreRaised : Prop :=
  ∀ (i : Instr) (s t : State) (f : FaultRecord), s.status ≠ .faulted → exec i s = .next t →
    t.status = .faulted → t.fault = some f → f.cause ∈ i.causes

/-- R57 read the other way: an instruction whose operand words all suit their roles never faults with `InvalidNumber` or
`InvalidRegisterTarget`, and with `InvalidOperand` only through a computed address of `rmem` or `wmem`. -/
def Obligations.FittingOperandsRaiseNoOperandFault : Prop :=
  ∀ (i : Instr) (s t : State) (f : FaultRecord), i.rolesFit = true → s.status ≠ .faulted →
    exec i s = .next t → t.status = .faulted → t.fault = some f →
    f.cause ≠ .invalidNumber ∧ f.cause ≠ .invalidRegisterTarget ∧
      (f.cause = .invalidOperand → ∃ a b, i = .rmem a b ∨ i = .wmem a b)

/-- R39, R32 (the FRAME of memory, all instructions): an instruction that took no fault leaves every cell unchanged but the
one its target computes, which for a register target or no target is none. -/
def Obligations.OnlyTheTargetCellChanges : Prop :=
  ∀ (i : Instr) (s t : State) (k : Nat), exec i s = .next t → t.status ≠ .faulted →
    (∀ n : BitVec 15, i.target s = some (.lit n) → k ≠ n.toNat) → t.mem.read k = s.mem.read k

/-- R14, R78 (the FRAME of the registers, all instructions): an instruction that took no fault leaves every register
unchanged but the one its target names. -/
def Obligations.OnlyTheTargetRegisterChanges : Prop :=
  ∀ (i : Instr) (s t : State) (q : Fin 8), exec i s = .next t → t.status ≠ .faulted →
    i.target s ≠ some (.reg q) → t.x[q] = s.x[q]

/-- R22, R23, R26, R18 (the FRAME of the rest, all instructions): the stack changes only by `push pop call ret`, the queue
only by `in`, the output only by `out`, the status only by `halt ret in`, the record by none that took no fault. -/
def Obligations.StackQueueOutputAndStatusHaveTheirInstructions : Prop :=
  ∀ (i : Instr) (s t : State), exec i s = .next t → t.status ≠ .faulted →
    (i.opcode ∉ [Opcode.push, .pop, .call, .ret] → t.stack = s.stack) ∧
    (i.opcode ≠ .inp → t.inq = s.inq) ∧
    (i.opcode ≠ .out → t.out = s.out) ∧
    (i.opcode ∉ [Opcode.halt, .ret, .inp] → t.status = s.status) ∧
    t.fault = s.fault ∧ t.hostLines = s.hostLines

/-- R16, and R81 and R141 for an `in` on an empty queue, which keeps pc (for `ret` on an empty stack decision D16, log 16;
for `jt` and `jf` on conditions above 32767 decision D13, log 14): the table of pc advances, `v` being any function that gives
the operands of the instruction their resolved values. -/
def Obligations.PcMovesAsTheTableSays : Prop :=
  ∀ (i : Instr) (s t : State) (v : Operand → Word), exec i s = .next t → t.status ≠ .faulted →
    (∀ o ∈ i.operands, ∀ w, checkNumber o s = .ok w → v o = w) → t.pc = i.pcAfter v s

/-- R18, R165, R185: the core comes to HALTED only by a `halt` or by a `ret` on an empty stack. -/
def Obligations.OnlyHaltAndEmptyRetHalt : Prop :=
  ∀ s t : State, step s = .next t → t.status = .halted →
    s.status = .running ∧ (fetchInstr s = .ok .halt ∨ (fetchInstr s = .ok .ret ∧ s.stack = []))

/-- R81, R141, R144, R172 (decision D28 for an `in` with an invalid destination, D20 for the wait, logs 12 and 9): the
core comes to WAIT_INPUT only by an `in` on an empty queue, with nothing written and pc still at the `in`; it stays
there, unchanged, only while there is no line. -/
def Obligations.OnlyInOnAnEmptyQueueWaits : Prop :=
  ∀ s t : State, step s = .next t → t.status = .waitInput →
    (s.status = .running ∧ (∃ a, fetchInstr s = .ok (.inp a)) ∧ s.inq = [] ∧ t = { s with status := .waitInput }) ∨
    (s.status = .waitInput ∧ s.hostLines = [] ∧ t = s)

/-- R26: no instruction reads the output: a core that had emitted more before makes the same step. Where the step takes a
fault, that registers, memory, stack and queue come out equal rests on the model's choice of what the free value of a
fault is applied to (log 3, under D9 and U6), not on a rule. -/
def Obligations.TheOutputIsNeverRead : Prop :=
  ∀ (s t : State) (o : List Word), step s = .next t →
    step { s with out := o ++ s.out } = .next { t with out := o ++ t.out }

/-- R26: along any run, the core's steps and the host's deliveries in any order, what was emitted stays and values are
only appended. -/
def Obligations.OutputOnlyGrowsAlongARun : Prop :=
  ∀ s t : State, Reaches s t → ∃ l, t.out = s.out ++ l

/-- The invariant `State.Inv` (R17, R19, R25, R81, R160 and the memory's canonical form, log 1; the bound on pc and the
wait at an `in` rest on decisions D10 and D28, logs 10 and 12) is kept by every step of the core or the host, from every
state that has it. -/
def Obligations.EveryStepKeepsTheInvariant : Prop :=
  ∀ s t : State, s.Inv → step s = .next t → t.Inv

/-- The invariant holds after reset. -/
def Obligations.ResetHasTheInvariant : Prop := State.reset.Inv

/-- R28: pc and the halted flag as the source gives them; registers, stack and queue at the decisions' values (D3, D4,
logs 4 and 5). -/
def Obligations.ResetValues : Prop :=
  State.reset.pc = 0 ∧ State.reset.halted = false ∧ State.reset.status = .running ∧
  (∀ k, State.reset.mem.read k = 0) ∧ (∀ q : Fin 8, State.reset.x[q] = 0) ∧
  State.reset.stack = [] ∧ State.reset.inq = [] ∧ State.reset.out = [] ∧ State.reset.fault = none

/-- R180, R28 (decisions D3, D4, D5, logs 4, 5, 22): reset with an image of at most 32768 words fills the cells with it and 0
beyond it, all else as after reset, and the state has the invariant; a longer image is refused. -/
def Obligations.ResetLoadsTheImage : Prop :=
  ∀ image : List Word,
    (image.length ≤ 32768 → ∃ s, resetWith image = .next s ∧ (∀ k, s.mem.read k = image.getD k 0) ∧
      s = { State.reset with mem := s.mem } ∧ s.Inv) ∧
    (32768 < image.length → resetWith image = .refused .imageTooLong)
end

