-- ==== Sys2Proof/Laws/Memory.lean ====
section
/-! SUPPORT. The laws of the memory array: read after write, and the canonical form. -/

namespace Sys2Proof.Machine

@[simp] theorem Memory.read_nil (a : Nat) : Memory.read [] a = 0 := rfl

theorem Memory.read_cons (c : Nat × Word) (m : Memory) (a : Nat) :
    Memory.read (c :: m) a = if c.1 = a then c.2 else Memory.read m a := rfl

theorem Memory.read_eq_zero_of_not_listed (m : Memory) (a : Nat) (h : ∀ c ∈ m, c.1 ≠ a) :
    m.read a = 0 := by
  induction m with
  | nil => rfl
  | cons c m ih =>
    rw [Memory.read_cons, if_neg (h c List.mem_cons_self)]
    exact ih fun d hd => h d (List.mem_cons_of_mem _ hd)

theorem Memory.mem_erase (m : Memory) (a : Nat) (c : Nat × Word) :
    c ∈ m.erase a ↔ c ∈ m ∧ c.1 ≠ a := by
  simp [Memory.erase, List.mem_filter]

theorem Memory.read_erase_same (m : Memory) (a : Nat) : (m.erase a).read a = 0 :=
  Memory.read_eq_zero_of_not_listed _ _ fun c hc => ((Memory.mem_erase m a c).1 hc).2

theorem Memory.read_erase_other (m : Memory) (a b : Nat) (h : b ≠ a) :
    (m.erase a).read b = m.read b := by
  induction m with
  | nil => rfl
  | cons c m ih =>
    by_cases hc : c.1 = a
    · have hcb : c.1 ≠ b := fun e => h (e.symm.trans hc)
      have he : Memory.erase (c :: m) a = Memory.erase m a := by simp [Memory.erase, hc]
      rw [he, ih, Memory.read_cons, if_neg hcb]
    · have he : Memory.erase (c :: m) a = c :: Memory.erase m a := by simp [Memory.erase, hc]
      rw [he, Memory.read_cons, Memory.read_cons, ih]

theorem Memory.mem_insert (m : Memory) (a : Nat) (v : Word) (c : Nat × Word) :
    c ∈ m.insert a v ↔ c = (a, v) ∨ c ∈ m := by
  induction m with
  | nil => simp [Memory.insert]
  | cons d m ih =>
    simp only [Memory.insert]
    split
    · simp
    · rw [List.mem_cons, ih, List.mem_cons]
      tauto

theorem Memory.read_insert_same (m : Memory) (a : Nat) (v : Word) (h : ∀ c ∈ m, c.1 ≠ a) :
    (m.insert a v).read a = v := by
  induction m with
  | nil => simp [Memory.insert, Memory.read_cons]
  | cons d m ih =>
    simp only [Memory.insert]
    split
    · simp [Memory.read_cons]
    · rw [Memory.read_cons, if_neg (h d List.mem_cons_self)]
      exact ih fun c hc => h c (List.mem_cons_of_mem _ hc)

theorem Memory.read_insert_other (m : Memory) (a b : Nat) (v : Word) (h : b ≠ a) :
    (m.insert a v).read b = m.read b := by
  induction m with
  | nil => simp [Memory.insert, Memory.read_cons, h.symm]
  | cons d m ih =>
    simp only [Memory.insert]
    split
    · rw [Memory.read_cons, if_neg (Ne.symm h)]
    · rw [Memory.read_cons, Memory.read_cons, ih]

/-- Read after write, the same cell (R33). -/
@[simp] theorem Memory.read_write_same (m : Memory) (a : Nat) (v : Word) : (m.write a v).read a = v := by
  unfold Memory.write
  split
  · next h => rw [Memory.read_erase_same, h]
  · exact Memory.read_insert_same _ _ _ fun c hc => ((Memory.mem_erase m a c).1 hc).2

/-- Read after write, another cell (R33). -/
theorem Memory.read_write_other (m : Memory) (a b : Nat) (v : Word) (h : b ≠ a) :
    (m.write a v).read b = m.read b := by
  unfold Memory.write
  split
  · exact Memory.read_erase_other m a b h
  · rw [Memory.read_insert_other _ _ _ _ h, Memory.read_erase_other m a b h]

theorem Memory.wf_nil : Memory.wf [] := by simp [Memory.wf]

theorem Memory.wf_erase {m : Memory} (h : m.wf) (a : Nat) : (m.erase a).wf :=
  ⟨h.1.filter _, fun c hc => h.2 c ((Memory.mem_erase m a c).1 hc).1⟩

theorem Memory.pairwise_insert {m : Memory} {a : Nat} {v : Word}
    (h : m.Pairwise (fun c d => c.1 < d.1)) (ha : ∀ c ∈ m, c.1 ≠ a) :
    (m.insert a v).Pairwise (fun c d => c.1 < d.1) := by
  induction m with
  | nil => simp [Memory.insert]
  | cons d m ih =>
    have hd := List.pairwise_cons.1 h
    simp only [Memory.insert]
    split
    · next hlt =>
      refine List.pairwise_cons.2 ⟨fun c hc => ?_, h⟩
      rcases List.mem_cons.1 hc with rfl | hc
      · exact hlt
      · exact Nat.lt_trans hlt (hd.1 c hc)
    · next hge =>
      have hda := ha d List.mem_cons_self
      refine List.pairwise_cons.2 ⟨fun c hc => ?_, ih hd.2 fun c hc => ha c (List.mem_cons_of_mem _ hc)⟩
      rcases (Memory.mem_insert m a v c).1 hc with rfl | hc
      · show d.1 < a
        omega
      · exact hd.1 c hc

/-- A write inside memory keeps the canonical form. -/
theorem Memory.wf_write {m : Memory} (h : m.wf) {a : Nat} (ha : a < 32768) (v : Word) : (m.write a v).wf := by
  unfold Memory.write
  have he := Memory.wf_erase h a
  split
  · exact he
  · next hv =>
    refine ⟨Memory.pairwise_insert he.1 fun c hc => ((Memory.mem_erase m a c).1 hc).2, fun c hc => ?_⟩
    rcases (Memory.mem_insert _ a v c).1 hc with rfl | hc
    · exact ⟨ha, hv⟩
    · exact he.2 c hc

theorem Memory.wf_foldl_write (cells : List (Nat × Word)) {m : Memory} (h : m.wf) :
    Memory.wf (cells.foldl (fun m c => if c.1 < Config.memWords then Memory.write m c.1 c.2 else m) m) := by
  induction cells generalizing m with
  | nil => exact h
  | cons c cells ih =>
    rw [List.foldl_cons]
    apply ih
    split
    · next hc => exact Memory.wf_write h hc _
    · exact h

/-- Whatever cells are given, the memory they describe is in canonical form. -/
theorem Memory.wf_ofCells (cells : List (Nat × Word)) : (Memory.ofCells cells).wf :=
  Memory.wf_foldl_write cells Memory.wf_nil

theorem Memory.mem_ofWordsAt (ws : List Word) (a : Nat) (c : Nat × Word) (h : c ∈ Memory.ofWordsAt a ws) :
    a ≤ c.1 ∧ c.1 < a + ws.length ∧ c.2 ≠ 0 := by
  induction ws generalizing a with
  | nil => simp [Memory.ofWordsAt] at h
  | cons w ws ih =>
    simp only [Memory.ofWordsAt] at h
    split at h
    · have := ih (a + 1) h
      simp only [List.length_cons]
      exact ⟨by omega, by omega, this.2.2⟩
    · next hw =>
      rcases List.mem_cons.1 h with rfl | h
      · exact ⟨Nat.le_refl _, by simp, hw⟩
      · have := ih (a + 1) h
        simp only [List.length_cons]
        exact ⟨by omega, by omega, this.2.2⟩

theorem Memory.pairwise_ofWordsAt (ws : List Word) (a : Nat) :
    (Memory.ofWordsAt a ws).Pairwise (fun c d => c.1 < d.1) := by
  induction ws generalizing a with
  | nil => simp [Memory.ofWordsAt]
  | cons w ws ih =>
    simp only [Memory.ofWordsAt]
    split
    · exact ih (a + 1)
    · refine List.pairwise_cons.2 ⟨fun c hc => ?_, ih (a + 1)⟩
      have := (Memory.mem_ofWordsAt ws (a + 1) c hc).1
      show a < c.1
      omega

/-- An image that fits in memory gives a memory in canonical form. -/
theorem Memory.wf_ofWordsAt (ws : List Word) (h : ws.length ≤ 32768) : (Memory.ofWordsAt 0 ws).wf := by
  refine ⟨Memory.pairwise_ofWordsAt ws 0, fun c hc => ?_⟩
  have := Memory.mem_ofWordsAt ws 0 c hc
  exact ⟨by show c.1 < 32768; omega, this.2.2⟩

/-- Cell `a + k` of an image holds its word `k`, and 0 beyond it (R28). -/
theorem Memory.read_ofWordsAt (ws : List Word) (a k : Nat) :
    (Memory.ofWordsAt a ws).read (a + k) = ws.getD k 0 := by
  induction ws generalizing a k with
  | nil => simp [Memory.ofWordsAt]
  | cons w ws ih =>
    cases k with
    | zero =>
      simp only [Memory.ofWordsAt]
      split
      · next hw =>
        rw [Memory.read_eq_zero_of_not_listed _ _ fun c hc => ?_]
        · simp [hw]
        · have := (Memory.mem_ofWordsAt ws (a + 1) c hc).1
          omega
      · simp [Memory.read_cons]
    | succ k =>
      have hk : a + (k + 1) = a + 1 + k := by omega
      simp only [Memory.ofWordsAt]
      split
      · rw [hk, ih]
        simp
      · rw [Memory.read_cons, if_neg (by simp), hk, ih]
        simp

/-- Equal memories are equal data: two memories in canonical form that read alike are one list. -/
theorem Memory.eq_of_read_eq {m n : Memory} (hm : m.wf) (hn : n.wf) (h : ∀ a, m.read a = n.read a) : m = n := by
  induction m generalizing n with
  | nil =>
    cases n with
    | nil => rfl
    | cons d n =>
      have := h d.1
      rw [Memory.read_nil, Memory.read_cons, if_pos rfl] at this
      exact absurd this.symm (hn.2 d List.mem_cons_self).2
  | cons c m ih =>
    cases n with
    | nil =>
      have := h c.1
      rw [Memory.read_nil, Memory.read_cons, if_pos rfl] at this
      exact absurd this (hm.2 c List.mem_cons_self).2
    | cons d n =>
      have hcm := List.pairwise_cons.1 hm.1
      have hdn := List.pairwise_cons.1 hn.1
      have below : ∀ (l : Memory) (b : Nat), (∀ e ∈ l, b < e.1) → l.read b = 0 := fun l b hl =>
        Memory.read_eq_zero_of_not_listed l b fun e he => by have := hl e he; omega
      have hcd : c.1 = d.1 := by
        rcases Nat.lt_trichotomy c.1 d.1 with hlt | heq | hgt
        · have h1 := h c.1
          rw [Memory.read_cons, if_pos rfl, Memory.read_cons, if_neg (by omega),
            below n c.1 fun e he => Nat.lt_trans hlt (hdn.1 e he)] at h1
          exact absurd h1 (hm.2 c List.mem_cons_self).2
        · exact heq
        · have h1 := h d.1
          rw [Memory.read_cons, if_neg (by omega), Memory.read_cons, if_pos rfl,
            below m d.1 fun e he => Nat.lt_trans hgt (hcm.1 e he)] at h1
          exact absurd h1.symm (hn.2 d List.mem_cons_self).2
      have hv : c.2 = d.2 := by
        have h1 := h c.1
        rwa [Memory.read_cons, if_pos rfl, Memory.read_cons, if_pos hcd.symm] at h1
      have htail : m = n := by
        refine ih ⟨hcm.2, fun e he => hm.2 e (List.mem_cons_of_mem _ he)⟩
          ⟨hdn.2, fun e he => hn.2 e (List.mem_cons_of_mem _ he)⟩ fun a => ?_
        by_cases ha : c.1 = a
        · subst ha
          rw [below m c.1 hcm.1, below n c.1 fun e he => by rw [hcd]; exact hdn.1 e he]
        · have h1 := h a
          rwa [Memory.read_cons, if_neg ha, Memory.read_cons, if_neg (by omega)] at h1
      rw [htail, Prod.ext hcd hv]

end Sys2Proof.Machine
end

