-- ==== Sys2Proof/Laws/State.lean ====
section
/-! SUPPORT. What each state update does to each field; `faultState` has no law for the fields R163 leaves unspecified. -/

namespace Sys2Proof.Machine

@[simp] theorem setReg_mem (r : Fin 8) (v : Word) (s : State) :
    (setReg r v s).mem = s.mem := rfl
@[simp] theorem setReg_x (r : Fin 8) (v : Word) (s : State) :
    (setReg r v s).x = s.x.set r v := rfl
@[simp] theorem setReg_pc (r : Fin 8) (v : Word) (s : State) :
    (setReg r v s).pc = s.pc := rfl
@[simp] theorem setReg_status (r : Fin 8) (v : Word) (s : State) :
    (setReg r v s).status = s.status := rfl
@[simp] theorem setReg_stack (r : Fin 8) (v : Word) (s : State) :
    (setReg r v s).stack = s.stack := rfl
@[simp] theorem setReg_inq (r : Fin 8) (v : Word) (s : State) :
    (setReg r v s).inq = s.inq := rfl
@[simp] theorem setReg_fault (r : Fin 8) (v : Word) (s : State) :
    (setReg r v s).fault = s.fault := rfl
@[simp] theorem setReg_out (r : Fin 8) (v : Word) (s : State) :
    (setReg r v s).out = s.out := rfl
@[simp] theorem setReg_hostLines (r : Fin 8) (v : Word) (s : State) :
    (setReg r v s).hostLines = s.hostLines := rfl

@[simp] theorem push_mem (v : Word) (s : State) :
    (push v s).mem = s.mem := rfl
@[simp] theorem push_x (v : Word) (s : State) :
    (push v s).x = s.x := rfl
@[simp] theorem push_pc (v : Word) (s : State) :
    (push v s).pc = s.pc := rfl
@[simp] theorem push_status (v : Word) (s : State) :
    (push v s).status = s.status := rfl
@[simp] theorem push_stack (v : Word) (s : State) :
    (push v s).stack = s.stack ++ [v] := rfl
@[simp] theorem push_inq (v : Word) (s : State) :
    (push v s).inq = s.inq := rfl
@[simp] theorem push_fault (v : Word) (s : State) :
    (push v s).fault = s.fault := rfl
@[simp] theorem push_out (v : Word) (s : State) :
    (push v s).out = s.out := rfl
@[simp] theorem push_hostLines (v : Word) (s : State) :
    (push v s).hostLines = s.hostLines := rfl

@[simp] theorem setPc_mem (t : Word) (s : State) :
    (setPc t s).mem = s.mem := rfl
@[simp] theorem setPc_x (t : Word) (s : State) :
    (setPc t s).x = s.x := rfl
@[simp] theorem setPc_pc (t : Word) (s : State) :
    (setPc t s).pc = t := rfl
@[simp] theorem setPc_status (t : Word) (s : State) :
    (setPc t s).status = s.status := rfl
@[simp] theorem setPc_stack (t : Word) (s : State) :
    (setPc t s).stack = s.stack := rfl
@[simp] theorem setPc_inq (t : Word) (s : State) :
    (setPc t s).inq = s.inq := rfl
@[simp] theorem setPc_fault (t : Word) (s : State) :
    (setPc t s).fault = s.fault := rfl
@[simp] theorem setPc_out (t : Word) (s : State) :
    (setPc t s).out = s.out := rfl
@[simp] theorem setPc_hostLines (t : Word) (s : State) :
    (setPc t s).hostLines = s.hostLines := rfl

@[simp] theorem advance_mem (n : Nat) (s : State) :
    (advance n s).mem = s.mem := rfl
@[simp] theorem advance_x (n : Nat) (s : State) :
    (advance n s).x = s.x := rfl
@[simp] theorem advance_pc (n : Nat) (s : State) :
    (advance n s).pc = s.pc + BitVec.ofNat 16 n := rfl
@[simp] theorem advance_status (n : Nat) (s : State) :
    (advance n s).status = s.status := rfl
@[simp] theorem advance_stack (n : Nat) (s : State) :
    (advance n s).stack = s.stack := rfl
@[simp] theorem advance_inq (n : Nat) (s : State) :
    (advance n s).inq = s.inq := rfl
@[simp] theorem advance_fault (n : Nat) (s : State) :
    (advance n s).fault = s.fault := rfl
@[simp] theorem advance_out (n : Nat) (s : State) :
    (advance n s).out = s.out := rfl
@[simp] theorem advance_hostLines (n : Nat) (s : State) :
    (advance n s).hostLines = s.hostLines := rfl

@[simp] theorem setHalted_mem (s : State) :
    (setHalted s).mem = s.mem := rfl
@[simp] theorem setHalted_x (s : State) :
    (setHalted s).x = s.x := rfl
@[simp] theorem setHalted_pc (s : State) :
    (setHalted s).pc = s.pc := rfl
@[simp] theorem setHalted_status (s : State) :
    (setHalted s).status = .halted := rfl
@[simp] theorem setHalted_stack (s : State) :
    (setHalted s).stack = s.stack := rfl
@[simp] theorem setHalted_inq (s : State) :
    (setHalted s).inq = s.inq := rfl
@[simp] theorem setHalted_fault (s : State) :
    (setHalted s).fault = s.fault := rfl
@[simp] theorem setHalted_out (s : State) :
    (setHalted s).out = s.out := rfl
@[simp] theorem setHalted_hostLines (s : State) :
    (setHalted s).hostLines = s.hostLines := rfl

@[simp] theorem setWaiting_mem (s : State) :
    (setWaiting s).mem = s.mem := rfl
@[simp] theorem setWaiting_x (s : State) :
    (setWaiting s).x = s.x := rfl
@[simp] theorem setWaiting_pc (s : State) :
    (setWaiting s).pc = s.pc := rfl
@[simp] theorem setWaiting_status (s : State) :
    (setWaiting s).status = .waitInput := rfl
@[simp] theorem setWaiting_stack (s : State) :
    (setWaiting s).stack = s.stack := rfl
@[simp] theorem setWaiting_inq (s : State) :
    (setWaiting s).inq = s.inq := rfl
@[simp] theorem setWaiting_fault (s : State) :
    (setWaiting s).fault = s.fault := rfl
@[simp] theorem setWaiting_out (s : State) :
    (setWaiting s).out = s.out := rfl
@[simp] theorem setWaiting_hostLines (s : State) :
    (setWaiting s).hostLines = s.hostLines := rfl

@[simp] theorem emit_mem (v : Word) (s : State) :
    (emit v s).mem = s.mem := rfl
@[simp] theorem emit_x (v : Word) (s : State) :
    (emit v s).x = s.x := rfl
@[simp] theorem emit_pc (v : Word) (s : State) :
    (emit v s).pc = s.pc := rfl
@[simp] theorem emit_status (v : Word) (s : State) :
    (emit v s).status = s.status := rfl
@[simp] theorem emit_stack (v : Word) (s : State) :
    (emit v s).stack = s.stack := rfl
@[simp] theorem emit_inq (v : Word) (s : State) :
    (emit v s).inq = s.inq := rfl
@[simp] theorem emit_fault (v : Word) (s : State) :
    (emit v s).fault = s.fault := rfl
@[simp] theorem emit_out (v : Word) (s : State) :
    (emit v s).out = s.out ++ [v] := rfl
@[simp] theorem emit_hostLines (v : Word) (s : State) :
    (emit v s).hostLines = s.hostLines := rfl

@[simp] theorem faultState_pc (op : Option Word) (r : Raise) (s : State) :
    (faultState op r s).pc = s.pc := rfl
@[simp] theorem faultState_status (op : Option Word) (r : Raise) (s : State) :
    (faultState op r s).status = .faulted := rfl
@[simp] theorem faultState_fault (op : Option Word) (r : Raise) (s : State) :
    (faultState op r s).fault = some ⟨r.cause, s.pc, op, r.info⟩ := rfl
@[simp] theorem faultState_out (op : Option Word) (r : Raise) (s : State) :
    (faultState op r s).out = s.out := rfl
@[simp] theorem faultState_hostLines (op : Option Word) (r : Raise) (s : State) :
    (faultState op r s).hostLines = s.hostLines := rfl

end Sys2Proof.Machine
end

