-- ==== Sys2Proof/Laws/Operands.lean ====
section
/-! SUPPORT. What each operand primitive and each shared ending of an instruction can do, said once. -/

namespace Sys2Proof

theorem Operand.toWord_ofWord (w : Word) : (Operand.ofWord w).toWord = w := by
  unfold Operand.ofWord
  split
  · next h =>
    simp only [Config.numMax] at h
    apply BitVec.eq_of_toNat_eq
    simp only [Operand.toWord, BitVec.toNat_setWidth]
    omega
  · split
    · next h1 h2 =>
      simp only [Config.numMax, Config.regTop] at h1 h2
      apply BitVec.eq_of_toNat_eq
      simp only [Operand.toWord, Config.regBase, BitVec.toNat_ofNat, Fin.ofNat]
      omega
    · rfl

/-- The literal class (R52). -/
theorem Operand.ofWord_of_le {w : Word} (h : w.toNat ≤ 32767) : Operand.ofWord w = .lit (w.setWidth 15) := if_pos h

/-- The register class (R52). -/
theorem Operand.ofWord_of_reg {w : Word} (h : 32768 ≤ w.toNat) (h' : w.toNat ≤ 32775) :
    Operand.ofWord w = .reg (Fin.ofNat 8 (w.toNat - 32768)) :=
  (if_neg (show ¬ w.toNat ≤ 32767 by omega)).trans (if_pos h')

/-- The invalid class (R52). -/
theorem Operand.ofWord_of_gt {w : Word} (h : 32775 < w.toNat) : Operand.ofWord w = .invalid w :=
  (if_neg (show ¬ w.toNat ≤ 32767 by omega)).trans (if_neg (show ¬ w.toNat ≤ 32775 by omega))

theorem Operand.toNat_toWord_lit (n : BitVec 15) : (Operand.lit n).toWord.toNat = n.toNat := by
  have := n.isLt
  simp only [Operand.toWord, BitVec.toNat_setWidth]
  omega

theorem Operand.toNat_toWord_reg (r : Fin 8) : (Operand.reg r).toWord.toNat = 32768 + r.val := by
  have := r.isLt
  simp only [Operand.toWord, Config.regBase, BitVec.toNat_ofNat]
  omega

theorem Operand.ofWord_toWord {o : Operand} (h : o.wellFormed = true) : Operand.ofWord o.toWord = o := by
  cases o with
  | lit n =>
    have hn := Operand.toNat_toWord_lit n
    have := n.isLt
    rw [Operand.ofWord_of_le (by omega)]
    refine congrArg Operand.lit (BitVec.eq_of_toNat_eq ?_)
    rw [BitVec.toNat_setWidth, hn]
    omega
  | reg r =>
    have hr := Operand.toNat_toWord_reg r
    have := r.isLt
    rw [Operand.ofWord_of_reg (by omega) (by omega)]
    refine congrArg Operand.reg (Fin.ext ?_)
    show ((Operand.reg r).toWord.toNat - 32768) % 8 = r.val
    omega
  | invalid w =>
    have hw : 32775 < w.toNat := by simpa [Operand.wellFormed] using h
    exact Operand.ofWord_of_gt hw

theorem Operand.wellFormed_ofWord (w : Word) : (Operand.ofWord w).wellFormed = true := by
  unfold Operand.ofWord
  split
  · rfl
  · split
    · rfl
    · next h => simpa [Operand.wellFormed] using h

end Sys2Proof

namespace Sys2Proof.Machine

theorem memRead_of_le {a : Nat} (h : a ≤ 32767) (s : State) : memRead a s = .ok (s.mem.read a) := by
  simp [memRead]; omega

theorem memRead_of_gt {a : Nat} (h : 32767 < a) (s : State) :
    memRead a s = .error ⟨.outOfRangeAddress, BitVec.ofNat 16 a⟩ := by
  simp [memRead, h]

/-- A literal's address always lies inside memory. -/
@[simp] theorem memRead_lit (n : BitVec 15) (s : State) : memRead n.toNat s = .ok (s.mem.read n.toNat) :=
  memRead_of_le (by have := n.isLt; omega) s

@[simp] theorem memWrite_lit (n : BitVec 15) (v : Word) (s : State) :
    memWrite n.toNat v s = .ok { s with mem := s.mem.write n.toNat v } := by
  have := n.isLt
  simp [memWrite]
  omega

@[simp] theorem checkNumber_lit (n : BitVec 15) (s : State) : checkNumber (.lit n) s = .ok (n.setWidth 16) := rfl

@[simp] theorem checkNumber_reg (r : Fin 8) (s : State) : checkNumber (.reg r) s = .ok s.x[r] := rfl

@[simp] theorem checkNumber_invalid (w : Word) (s : State) :
    checkNumber (.invalid w) s = .error ⟨.invalidNumber, w⟩ := rfl

/-- `CheckNumber` looks at the registers only. -/
theorem checkNumber_congr (o : Operand) {s t : State} (h : t.x = s.x) : checkNumber o t = checkNumber o s := by
  cases o <;> simp [h]

@[simp] theorem readFrom_lit (n : BitVec 15) (s : State) : readFrom (.lit n) s = .ok (s.mem.read n.toNat) :=
  memRead_lit n s

@[simp] theorem readFrom_reg (r : Fin 8) (s : State) : readFrom (.reg r) s = .ok s.x[r] := rfl

@[simp] theorem readFrom_invalid (w : Word) (s : State) :
    readFrom (.invalid w) s = .error ⟨.invalidOperand, w⟩ := rfl

@[simp] theorem writeTo_lit (n : BitVec 15) (v : Word) (s : State) :
    writeTo (.lit n) v s = .ok { s with mem := s.mem.write n.toNat v } := memWrite_lit n v s

@[simp] theorem writeTo_reg (r : Fin 8) (v : Word) (s : State) :
    writeTo (.reg r) v s = .ok { s with x := s.x.set r v } := rfl

@[simp] theorem writeTo_invalid (w v : Word) (s : State) :
    writeTo (.invalid w) v s = .error ⟨.invalidOperand, w⟩ := rfl

/-- At the default STACK_DEPTH a push never fails (R22, R77). -/
@[simp] theorem pushThen_stackDepth (v : Word) (s : State) (rest : State → Result) :
    pushThen Config.stackDepth v s rest = rest (push v s) := rfl

/-- Everything a push in a build of depth `d` can do (U2). -/
theorem pushThen_cases (d : Nat) (v : Word) (s : State) (rest : State → Result) :
    (s.stack.length < d ∧ pushThen (some d) v s rest = rest (push v s)) ∨
    (d ≤ s.stack.length ∧ pushThen (some d) v s rest = .refused .stackDepthReached) := by
  by_cases h : s.stack.length < d
  · exact .inl ⟨h, by simp [pushThen, stackHasRoom, h]⟩
  · exact .inr ⟨by omega, by simp [pushThen, stackHasRoom, h]⟩

@[simp] theorem pop_nil {s : State} (h : s.stack = []) : pop s = none := by simp [pop, h]

@[simp] theorem pop_append {s : State} {l : List Word} {v : Word} (h : s.stack = l ++ [v]) :
    pop s = some (v, { s with stack := l }) := by simp [pop, h]

/-- Everything `CheckNumber` can answer (R73). -/
theorem checkNumber_cases (o : Operand) (s : State) :
    (∃ v, o.valid = true ∧ checkNumber o s = .ok v) ∨
      ∃ w, o = .invalid w ∧ checkNumber o s = .error ⟨.invalidNumber, w⟩ := by
  cases o with
  | lit n => exact .inl ⟨_, rfl, rfl⟩
  | reg r => exact .inl ⟨_, rfl, rfl⟩
  | invalid w => exact .inr ⟨w, rfl, rfl⟩

/-- Everything `ReadFrom` can answer (R74). -/
theorem readFrom_cases (o : Operand) (s : State) :
    (∃ v, readFrom o s = .ok v) ∨ ∃ w, o = .invalid w ∧ readFrom o s = .error ⟨.invalidOperand, w⟩ := by
  cases o with
  | lit n => exact .inl ⟨_, readFrom_lit n s⟩
  | reg r => exact .inl ⟨_, rfl⟩
  | invalid w => exact .inr ⟨w, rfl, rfl⟩

/-- Everything the shared ending `WriteTo, advance` can do (R75, R79). -/
theorem storeAndAdvance_cases (op : Opcode) (a : Operand) (v : Word) (s : State) :
    (∃ n, a = .lit n ∧ storeAndAdvance op a v s =
      .next { s with mem := s.mem.write n.toNat v, pc := s.pc + BitVec.ofNat 16 op.length }) ∨
    (∃ r, a = .reg r ∧ storeAndAdvance op a v s =
      .next { s with x := s.x.set r v, pc := s.pc + BitVec.ofNat 16 op.length }) ∨
    ∃ w, a = .invalid w ∧ storeAndAdvance op a v s =
      .next (faultState (some op.word) ⟨.invalidOperand, w⟩ s) := by
  cases a with
  | lit n => exact .inl ⟨n, rfl, by simp [storeAndAdvance, advance]⟩
  | reg r => exact .inr (.inl ⟨r, rfl, rfl⟩)
  | invalid w => exact .inr (.inr ⟨w, rfl, rfl⟩)

/-- Everything the shape `op a b c` can do (R79). -/
theorem binaryOp_cases (op : Opcode) (f : Word → Word → Word) (a b c : Operand) (s : State) :
    (∃ vb vc, checkNumber b s = .ok vb ∧ checkNumber c s = .ok vc ∧
      binaryOp op f a b c s = storeAndAdvance op a (f vb vc) s) ∨
    ∃ w, (b = .invalid w ∨ c = .invalid w) ∧
      binaryOp op f a b c s = .next (faultState (some op.word) ⟨.invalidNumber, w⟩ s) := by
  rcases checkNumber_cases b s with ⟨vb, -, hb⟩ | ⟨w, rfl, hb⟩
  · rcases checkNumber_cases c s with ⟨vc, -, hc⟩ | ⟨w, rfl, hc⟩
    · exact .inl ⟨vb, vc, hb, hc, by simp [binaryOp, hb, hc]⟩
    · exact .inr ⟨w, .inr rfl, by simp [binaryOp, hb, raiseIn, takeFault]⟩
  · exact .inr ⟨w, .inl rfl, by simp [binaryOp, raiseIn, takeFault]⟩

/-- Everything a control transfer can do (R76). -/
theorem transferTo_cases (op : Opcode) (t : Word) (s : State) :
    (t.toNat ≤ 32767 ∧ transferTo op t s = .next { s with pc := t }) ∨
    (32767 < t.toNat ∧ transferTo op t s = .next (faultState (some op.word) ⟨.outOfRangeAddress, t⟩ s)) := by
  by_cases h : 32767 < t.toNat
  · exact .inr ⟨h, by simp [transferTo, checkAddress, h, raiseIn, takeFault]⟩
  · exact .inl ⟨by omega, by simp [transferTo, checkAddress, h, setPc]⟩

/-- Everything a jump to a target operand can do (R53, R76). -/
theorem jumpTo_cases (op : Opcode) (a : Operand) (s : State) :
    (∃ t, checkNumber a s = .ok t ∧ jumpTo op a s = transferTo op t s) ∨
    ∃ w, a = .invalid w ∧ jumpTo op a s = .next (faultState (some op.word) ⟨.invalidNumber, w⟩ s) := by
  rcases checkNumber_cases a s with ⟨t, -, h⟩ | ⟨w, rfl, h⟩
  · exact .inl ⟨t, h, by simp [jumpTo, h]⟩
  · exact .inr ⟨w, rfl, by simp [jumpTo, raiseIn, takeFault]⟩

/-- Everything `Pop()` can answer (R77). -/
theorem pop_cases (s : State) :
    (s.stack = [] ∧ pop s = none) ∨ ∃ l v, s.stack = l ++ [v] ∧ pop s = some (v, { s with stack := l }) := by
  rcases List.eq_nil_or_concat s.stack with h | ⟨l, v, h⟩
  · exact .inl ⟨h, pop_nil h⟩
  · rw [List.concat_eq_append] at h
    exact .inr ⟨l, v, h, pop_append h⟩

end Sys2Proof.Machine
end

