-- ==== Sys2Proof/Laws/PerInstr.lean ====
section
/-! SUPPORT. Per-instruction families (LAWS.json). `Shape`: an instruction is its opcode word, which the table reads back,
and as many operand words as its format has (spec/30_encoding.md R50, R51, R54, R55). -/

namespace Sys2Proof.Laws.Shape

open Sys2Proof

def Statement (i : Instr) : Prop :=
  (encode i).length = i.length ∧ Opcode.ofWord i.opcode.word = some i.opcode ∧ 1 ≤ i.length ∧ i.length ≤ 4

/-- The parts of `Statement` that depend on the opcode alone. -/
theorem opcode_shape (op : Opcode) : Opcode.ofWord op.word = some op ∧ 1 ≤ op.length ∧ op.length ≤ 4 := by
  cases op <;> decide

theorem of_operands {i : Instr} (h : i.operands.length + 1 = i.opcode.length) : Statement i := by
  have ho := opcode_shape i.opcode
  exact ⟨by simp [encode, Instr.length, h], ho⟩

theorem halt : Statement .halt := of_operands rfl
theorem set (a b : Operand) : Statement (.set a b) := of_operands rfl
theorem push (a : Operand) : Statement (.push a) := of_operands rfl
theorem pop (a : Operand) : Statement (.pop a) := of_operands rfl
theorem eq (a b c : Operand) : Statement (.eq a b c) := of_operands rfl
theorem gt (a b c : Operand) : Statement (.gt a b c) := of_operands rfl
theorem jmp (a : Operand) : Statement (.jmp a) := of_operands rfl
theorem jt (a b : Operand) : Statement (.jt a b) := of_operands rfl
theorem jf (a b : Operand) : Statement (.jf a b) := of_operands rfl
theorem add (a b c : Operand) : Statement (.add a b c) := of_operands rfl
theorem mult (a b c : Operand) : Statement (.mult a b c) := of_operands rfl
theorem mod (a b c : Operand) : Statement (.mod a b c) := of_operands rfl
theorem and (a b c : Operand) : Statement (.and a b c) := of_operands rfl
theorem or (a b c : Operand) : Statement (.or a b c) := of_operands rfl
theorem not (a b : Operand) : Statement (.not a b) := of_operands rfl
theorem rmem (a b : Operand) : Statement (.rmem a b) := of_operands rfl
theorem wmem (a b : Operand) : Statement (.wmem a b) := of_operands rfl
theorem call (a : Operand) : Statement (.call a) := of_operands rfl
theorem ret : Statement .ret := of_operands rfl
theorem out (a : Operand) : Statement (.out a) := of_operands rfl
theorem inp (a : Operand) : Statement (.inp a) := of_operands rfl
theorem noop : Statement .noop := of_operands rfl

end Sys2Proof.Laws.Shape
end

