-- ==== Sys2Proof/Laws/Fetch.lean ====
section
/-! SUPPORT. The laws of the fetch and of the decoder that the step goes through. -/

namespace Sys2Proof

theorem Opcode.ofWord_word (op : Opcode) : Opcode.ofWord op.word = some op := (Laws.Shape.opcode_shape op).1

/-- A word the table does not list is above 21 (R56). -/
theorem Opcode.ofWord_none_of_gt {w : Word} (h : 21 < w.toNat) : Opcode.ofWord w = none := by
  unfold Opcode.ofWord
  split <;> first | rfl | omega

/-- Every word up to 21 is listed (R54). -/
theorem Opcode.ofWord_some_of_le {w : Word} (h : w.toNat ≤ 21) : ∃ op, Opcode.ofWord w = some op := by
  unfold Opcode.ofWord
  generalize w.toNat = n at h
  interval_cases n <;> exact ⟨_, rfl⟩

/-- A word the table lists is that row's id (R54). -/
theorem Opcode.word_of_ofWord {w : Word} {op : Opcode} (h : Opcode.ofWord w = some op) : op.word = w := by
  unfold Opcode.ofWord at h
  split at h <;> first
    | (next hw => cases h; exact BitVec.eq_of_toNat_eq (by rw [hw]; rfl))
    | cases h

/-- Given all its operand words, an opcode decodes, leaving the rest of the list. -/
theorem Opcode.decodeOperands_of_le (op : Opcode) {ws : List Word} (h : op.length - 1 ≤ ws.length) :
    ∃ i, op.decodeOperands ws = .ok (i, ws.drop (op.length - 1)) ∧ i.opcode = op ∧
      i.operands = (ws.take (op.length - 1)).map Operand.ofWord := by
  match ws, h with
  | [], h => cases op <;> first | exact ⟨_, rfl, rfl, rfl⟩ | (simp [Opcode.length] at h)
  | [_], h => cases op <;> first | exact ⟨_, rfl, rfl, rfl⟩ | (simp [Opcode.length] at h)
  | [_, _], h => cases op <;> first | exact ⟨_, rfl, rfl, rfl⟩ | (simp [Opcode.length] at h)
  | _ :: _ :: _ :: _, h => cases op <;> exact ⟨_, rfl, rfl, rfl⟩

/-- Two instructions with one opcode and the same operands are one. -/
theorem Instr.ext_of_opcode_operands {i j : Instr} (ho : i.opcode = j.opcode) (hp : i.operands = j.operands) :
    i = j := by
  cases i <;> cases j <;> simp_all [Instr.opcode, Instr.operands]

end Sys2Proof

namespace Sys2Proof.Machine

/-- The operand fetch gives the cells in order when all of them lie inside memory (R72). -/
theorem fetchOperands_inside (n a : Nat) (s : State) (h : a + n ≤ 32768) :
    fetchOperands n a s = .ok ((List.range n).map fun k => s.mem.read (a + k)) := by
  induction n generalizing a with
  | zero => rfl
  | succ n ih =>
    have ht : (List.range (n + 1)).map (fun k => s.mem.read (a + k)) =
        s.mem.read a :: (List.range n).map fun k => s.mem.read (a + 1 + k) := by
      rw [List.range_succ_eq_map, List.map_cons, List.map_map]
      refine congrArg₂ _ rfl (List.map_congr_left fun k _ => ?_)
      show s.mem.read (a + (k + 1)) = s.mem.read (a + 1 + k)
      rw [show a + (k + 1) = a + 1 + k by omega]
    rw [fetchOperands, memRead_of_le (by omega), ih (a + 1) (by omega), ht]

/-- The operand fetch that runs off the top of memory raises at address 32768 (R72, R17). -/
theorem fetchOperands_outside (n a : Nat) (s : State) (ha : a ≤ 32768) (h : 32768 < a + n) :
    fetchOperands n a s = .error ⟨.outOfRangeAddress, 32768⟩ := by
  induction n generalizing a with
  | zero => omega
  | succ n ih =>
    by_cases hb : a ≤ 32767
    · rw [fetchOperands, memRead_of_le hb, ih (a + 1) (by omega) (by omega)]
    · have : a = 32768 := by omega
      subst this
      rw [fetchOperands, memRead_of_gt (by omega)]
      rfl

/-- The operand words of a legal opcode always decode: the fetch of an instruction wholly inside memory succeeds. -/
theorem fetchInstr_inside {s : State} {op : Opcode} (hop : Opcode.ofWord (s.mem.read s.pc.toNat) = some op)
    (h : s.pc.toNat + op.length ≤ 32768) :
    ∃ i, fetchInstr s = .ok i ∧ i.opcode = op ∧
      i.operands = (List.range (op.length - 1)).map fun k => Operand.ofWord (s.mem.read (s.pc.toNat + 1 + k)) := by
  have hl := (Laws.Shape.opcode_shape op).2.1
  obtain ⟨i, hi, ho, hp⟩ := op.decodeOperands_of_le
    (ws := (List.range (op.length - 1)).map fun k => s.mem.read (s.pc.toNat + 1 + k)) (by simp)
  refine ⟨i, ?_, ho, ?_⟩
  · rw [fetchInstr, memRead_of_le (by omega)]
    simp only [hop]
    rw [fetchOperands_inside _ _ _ (by omega)]
    simp only [hi]
  · rw [hp, List.take_of_length_le (by simp), List.map_map]
    rfl

/-- Everything the fetch can answer (R70 to R72). -/
theorem fetchInstr_cases (s : State) :
    (∃ i, fetchInstr s = .ok i ∧ s.pc.toNat + i.length ≤ 32768 ∧
      Opcode.ofWord (s.mem.read s.pc.toNat) = some i.opcode) ∨
    (32767 < s.pc.toNat ∧ fetchInstr s = .error ⟨none, .outOfRangeAddress, s.pc⟩) ∨
    (s.pc.toNat ≤ 32767 ∧ 21 < (s.mem.read s.pc.toNat).toNat ∧
      fetchInstr s = .error ⟨some (s.mem.read s.pc.toNat), .invalidOpcode, s.mem.read s.pc.toNat⟩) ∨
    (s.pc.toNat ≤ 32767 ∧ (∃ op, Opcode.ofWord (s.mem.read s.pc.toNat) = some op ∧ 32768 < s.pc.toNat + op.length) ∧
      fetchInstr s = .error ⟨some (s.mem.read s.pc.toNat), .outOfRangeAddress, 32768⟩) := by
  by_cases hpc : s.pc.toNat ≤ 32767
  · cases hop : Opcode.ofWord (s.mem.read s.pc.toNat) with
    | none =>
      refine .inr (.inr (.inl ⟨hpc, ?_, by rw [fetchInstr, memRead_of_le hpc]; simp only [hop]⟩))
      by_contra hle
      obtain ⟨op, h⟩ := Opcode.ofWord_some_of_le (w := s.mem.read s.pc.toNat) (by omega)
      rw [hop] at h
      cases h
    | some op =>
      by_cases hin : s.pc.toNat + op.length ≤ 32768
      · obtain ⟨i, hi, ho, -⟩ := fetchInstr_inside hop hin
        exact .inl ⟨i, hi, by rw [Instr.length, ho]; exact hin, by rw [ho]⟩
      · have hl := (Laws.Shape.opcode_shape op).2
        refine .inr (.inr (.inr ⟨hpc, ⟨op, rfl, by omega⟩, ?_⟩))
        rw [fetchInstr, memRead_of_le hpc]
        simp only [hop]
        rw [fetchOperands_outside _ _ _ (by omega) (by omega)]
  · refine .inr (.inl ⟨by omega, ?_⟩)
    rw [fetchInstr, memRead_of_gt (by omega)]
    simp

/-- The fetch looks at memory and pc only. -/
theorem fetchInstr_congr {s t : State} (hm : t.mem = s.mem) (hp : t.pc = s.pc) : fetchInstr t = fetchInstr s := by
  have hr : ∀ a, memRead a t = memRead a s := fun a => by simp [memRead, hm]
  have hf : ∀ n a, fetchOperands n a t = fetchOperands n a s := fun n => by
    induction n with
    | zero => intro a; rfl
    | succ n ih => intro a; rw [fetchOperands, fetchOperands, hr, ih]
  rw [fetchInstr, fetchInstr, hr, hp]
  split
  · rfl
  · split
    · rfl
    · rw [hf]

end Sys2Proof.Machine
end

