-- ==== Sys2Proof/Laws/Step.lean ====
section
/-! SUPPORT. What the remaining shared operations and the step can do, and that memory keeps its canonical form. -/

namespace Sys2Proof.Machine

/-- Everything `MemRead` can answer (R31). -/
theorem memRead_cases (a : Nat) (s : State) :
    (a ≤ 32767 ∧ memRead a s = .ok (s.mem.read a)) ∨
      (32767 < a ∧ memRead a s = .error ⟨.outOfRangeAddress, BitVec.ofNat 16 a⟩) := by
  by_cases h : a ≤ 32767
  · exact .inl ⟨h, memRead_of_le h s⟩
  · exact .inr ⟨by omega, memRead_of_gt (by omega) s⟩

/-- Everything `MemWrite` can answer (R32). -/
theorem memWrite_cases (a : Nat) (v : Word) (s : State) :
    (a ≤ 32767 ∧ memWrite a v s = .ok { s with mem := s.mem.write a v }) ∨
      (32767 < a ∧ memWrite a v s = .error ⟨.outOfRangeAddress, BitVec.ofNat 16 a⟩) := by
  by_cases h : a ≤ 32767
  · exact .inl ⟨h, by simp [memWrite]; omega⟩
  · exact .inr ⟨by omega, by simp [memWrite]; omega⟩

/-- Everything `WriteTo` can answer (R75). -/
theorem writeTo_cases (o : Operand) (v : Word) (s : State) :
    (∃ n, o = .lit n ∧ writeTo o v s = .ok { s with mem := s.mem.write n.toNat v }) ∨
    (∃ r, o = .reg r ∧ writeTo o v s = .ok { s with x := s.x.set r v }) ∨
    ∃ w, o = .invalid w ∧ writeTo o v s = .error ⟨.invalidOperand, w⟩ := by
  cases o with
  | lit n => exact .inl ⟨n, rfl, writeTo_lit n v s⟩
  | reg r => exact .inr (.inl ⟨r, rfl, rfl⟩)
  | invalid w => exact .inr (.inr ⟨w, rfl, rfl⟩)

/-- A store through `WriteTo` keeps the memory's canonical form. -/
theorem writeTo_keeps_wf {o : Operand} {v : Word} {s t : State} (h : writeTo o v s = .ok t) (hs : s.mem.wf) :
    t.mem.wf := by
  rcases writeTo_cases o v s with ⟨n, -, h'⟩ | ⟨r, -, h'⟩ | ⟨w, -, h'⟩ <;> rw [h'] at h <;> cases h
  · exact Memory.wf_write hs n.isLt v
  · exact hs

/-- After a fault the memory is in canonical form, whatever the free value is. -/
theorem faultState_wf (op : Option Word) (r : Raise) (s : State) : (faultState op r s).mem.wf := Memory.wf_ofCells _

/-- Words placed inside memory keep its canonical form. -/
theorem storeWords_wf (ws : List Word) (a : Nat) {m : Memory} (hm : m.wf) (h : a + ws.length ≤ 32768) :
    (storeWords a ws m).wf := by
  induction ws generalizing a m with
  | nil => exact hm
  | cons w ws ih =>
    simp only [List.length_cons] at h
    exact ih (a + 1) (Memory.wf_write hm (by omega) w) (by omega)

/-- Placing an instruction keeps the memory's canonical form. -/
theorem withFetchWord_wf (s : State) (nbits w : Nat) (hs : s.mem.wf) : (s.withFetchWord nbits w).mem.wf := by
  refine storeWords_wf (tableWords nbits w) _ hs ?_
  show (placeAt s).toNat + 4 ≤ 32768
  by_cases h : s.pc.toNat + 3 ≤ 32767
  · rw [show placeAt s = s.pc from if_pos h]
    omega
  · rw [show placeAt s = 0 from if_neg h]
    decide

/-- Everything the host's move can do (R142). -/
theorem hostDeliver_cases (line : List Word) (s : State) :
    (s.status = .waitInput ∧
      hostDeliver line s = .next { s with inq := line ++ [Config.newline], status := .running }) ∨
    (s.status ≠ .waitInput ∧ hostDeliver line s = .refused .lineNotRequested) := by
  unfold hostDeliver
  cases h : s.status <;> simp

/-- Everything the wait can do (R144). -/
theorem awaitLine_cases {s : State} (h : s.status = .waitInput) :
    (s.hostLines = [] ∧ awaitLine s = .next s) ∨
    ∃ line more, s.hostLines = line :: more ∧
      awaitLine s = .next { s with inq := line ++ [Config.newline], status := .running, hostLines := more } := by
  unfold awaitLine
  cases hl : s.hostLines with
  | nil => exact .inl ⟨rfl, rfl⟩
  | cons line more => exact .inr ⟨line, more, rfl, by simp [hostDeliver, h]⟩

/-- Everything a step that answers a next state can have done (R70, R83): an instruction that lies wholly inside memory was
executed, its fetch took a fault, or the machine was waiting for a line. -/
theorem step_cases {s t : State} (h : step s = .next t) :
    (s.status = .running ∧ ∃ i, fetchInstr s = .ok i ∧ s.pc.toNat + i.length ≤ 32768 ∧ exec i s = .next t) ∨
    (s.status = .running ∧ ∃ e, fetchInstr s = .error e ∧ t = faultState e.opcode e.raise s) ∨
    (s.status = .waitInput ∧ awaitLine s = .next t) := by
  unfold step at h
  split at h
  · next hs =>
    unfold runInstr at h
    cases hf : fetchInstr s with
    | error e =>
      rw [hf] at h
      cases h
      exact .inr (.inl ⟨hs, e, rfl, rfl⟩)
    | ok i =>
      rw [hf] at h
      refine .inl ⟨hs, i, rfl, ?_, h⟩
      rcases fetchInstr_cases s with ⟨j, hj, hl, -⟩ | ⟨-, hj⟩ | ⟨-, -, hj⟩ | ⟨-, -, hj⟩ <;> rw [hf] at hj <;> cases hj
      exact hl
  · next hs => exact .inr (.inr ⟨hs, h⟩)
  · cases h
  · cases h

end Sys2Proof.Machine
end

