-- ==== Sys2Proof/Tests/Slice0.lean ====
section
/-! SUPPORT. Tests. Expected results are the spec's own: the words of spec/30_encoding.md and the vectors S and V of
spec/95_test_vectors.md, named where they are used. The second half shows, for each statement with hypotheses, a state
and operands that meet them. -/

namespace Sys2Proof.Tests

open Sys2Proof.Machine

/-- After reset with these words from address 0. -/
def st (ws : List Word) : State := { State.reset with mem := Memory.ofWordsAt 0 ws }

/-- `st ws` with register `r` holding `v`. -/
def stR (ws : List Word) (r : Fin 8) (v : Word) : State := setReg r v (st ws)

/-- A field of the state one step leads to. -/
def after {α : Type} (f : State → α) (s : State) : Option α :=
  match step s with
  | .next t => some (f t)
  | .fault _ => none
  | .refused _ => none

/-- Register r and pc. -/
def rp (r : Fin 8) (s : State) : Word × Word := (s.x[r], s.pc)

/-! ### Well-formedness: an ill-formed term for each check -/

theorem test_wf_rejects_in_w2 : (Instr.push (.invalid 32775)).wellFormed = false := by decide
theorem test_wf_rejects_in_w3 : (Instr.set (.reg 0) (.invalid 0)).wellFormed = false := by decide
theorem test_wf_rejects_in_w4 : (Instr.add (.lit 1) (.reg 1) (.invalid 32768)).wellFormed = false := by decide
theorem test_wf_accepts : (Instr.add (.lit 1) (.reg 1) (.invalid 32776)).wellFormed = true := by decide
theorem test_roles_reject_set_target : (Instr.set (.lit 100) (.lit 5)).rolesFit = false := by decide
theorem test_roles_reject_value : (Instr.push (.invalid 40000)).rolesFit = false := by decide
theorem test_roles_reject_destination : (Instr.pop (.invalid 40000)).rolesFit = false := by decide
theorem test_roles_accept : (Instr.wmem (.lit 100) (.reg 1)).rolesFit = true := by decide

/-! ### Decoding: one instruction of every row, its words written out from R54 and R51 -/

theorem test_decode_halt : decode [0x0000] = .ok (.halt, []) := rfl
theorem test_decode_set : decode [0x0001, 0x8000, 5] = .ok (.set (.reg 0) (.lit 5), []) := rfl
theorem test_decode_push : decode [0x0002, 0x8002] = .ok (.push (.reg 2), []) := rfl
theorem test_decode_pop : decode [0x0003, 100] = .ok (.pop (.lit 100), []) := rfl
theorem test_decode_eq : decode [0x0004, 0x8000, 0x8001, 4] = .ok (.eq (.reg 0) (.reg 1) (.lit 4), []) := rfl
theorem test_decode_gt : decode [0x0005, 0x8000, 5, 3] = .ok (.gt (.reg 0) (.lit 5) (.lit 3), []) := rfl
theorem test_decode_jmp : decode [0x0006, 0x8003] = .ok (.jmp (.reg 3), []) := rfl
theorem test_decode_jt : decode [0x0007, 0x8000, 6] = .ok (.jt (.reg 0) (.lit 6), []) := rfl
theorem test_decode_jf : decode [0x0008, 0x8007, 20] = .ok (.jf (.reg 7) (.lit 20), []) := rfl
theorem test_decode_add : decode [0x0009, 0x8000, 4, 4] = .ok (.add (.reg 0) (.lit 4) (.lit 4), []) := rfl
theorem test_decode_mult : decode [0x000A, 0x8001, 300, 200] = .ok (.mult (.reg 1) (.lit 300) (.lit 200), []) := rfl
theorem test_decode_mod : decode [0x000B, 0x8002, 0x8000, 0x8001] = .ok (.mod (.reg 2) (.reg 0) (.reg 1), []) := rfl
theorem test_decode_and : decode [0x000C, 0x8000, 12, 10] = .ok (.and (.reg 0) (.lit 12) (.lit 10), []) := rfl
theorem test_decode_or : decode [0x000D, 0x8000, 12, 10] = .ok (.or (.reg 0) (.lit 12) (.lit 10), []) := rfl
theorem test_decode_not : decode [0x000E, 0x8001, 0x8000] = .ok (.not (.reg 1) (.reg 0), []) := rfl
theorem test_decode_rmem : decode [0x000F, 0x8002, 100] = .ok (.rmem (.reg 2) (.lit 100), []) := rfl
theorem test_decode_wmem : decode [0x0010, 100, 0x8001] = .ok (.wmem (.lit 100) (.reg 1), []) := rfl
theorem test_decode_call : decode [0x0011, 5] = .ok (.call (.lit 5), []) := rfl
theorem test_decode_ret : decode [0x0012, 9] = .ok (.ret, [9]) := rfl
theorem test_decode_out : decode [0x0013, 0x8000] = .ok (.out (.reg 0), []) := rfl
theorem test_decode_in : decode [0x0014, 50] = .ok (.inp (.lit 50), []) := rfl
theorem test_decode_noop : decode [0x0015] = .ok (.noop, []) := rfl
/-- R56. -/
theorem test_decode_above_21 : decode [0x0016] = .error (.invalidOpcode 22) ∧
    decode [0x8000] = .error (.invalidOpcode 32768) := ⟨rfl, rfl⟩
/-- R52: the ends of the three classes. -/
theorem test_operand_classes : Operand.ofWord 32767 = .lit 32767 ∧ Operand.ofWord 32768 = .reg 0 ∧
    Operand.ofWord 32775 = .reg 7 ∧ Operand.ofWord 32776 = .invalid 32776 := by decide
theorem test_table_word : decodeTableWord 48 0x000580000001 = some (.set (.reg 0) (.lit 5)) ∧
    decodeTableWord 16 9 = some (.add (.lit 0) (.lit 0) (.lit 0)) := by decide
/-- R62: the image bytes of the source's example. -/
theorem test_image_of_bytes :
    imageOfBytes [0x09, 0x00, 0x00, 0x80, 0x04, 0x00, 0x04, 0x00, 0x13, 0x00, 0x00, 0x80, 0x00, 0x00] =
      some [9, 32768, 4, 4, 19, 32768, 0] := by decide

/-! ### One step, from the vectors -/

/-- S9: `halt` leaves pc. -/
theorem test_halt_S9 : after (fun t => (t.halted, t.pc, t.out)) (st [0]) = some (true, 0, []) := by decide
theorem test_set_V31 : after (rp 0) (stR [1, 32768, 32769] 1 7) = some (7, 3) := by decide
theorem test_set_V33 : after (fun t => t.fault) (st [1, 100, 5]) =
    some (some ⟨.invalidRegisterTarget, 0, some 1, 100⟩) := by decide
theorem test_push_V36 : after (fun t => (t.stack, t.pc)) (push 1 (st [2, 7])) = some ([1, 7], 2) := by decide
theorem test_push_V25 : after (fun t => (t.status, t.fault)) (st [2, 40000]) =
    some (.faulted, some ⟨.invalidNumber, 0, some 2, 40000⟩) := by decide
/-- U2: a build of depth 2 takes a second word and refuses a third; the default takes it. -/
theorem test_push_depth_U2 : pushThen (some 2) 7 (push 1 (st [])) .next = .next (push 7 (push 1 (st []))) ∧
    pushThen (some 2) 7 (push 2 (push 1 (st []))) .next = .refused .stackDepthReached ∧
    pushThen Config.stackDepth 7 (push 2 (push 1 (st []))) .next = .next (push 7 (push 2 (push 1 (st [])))) :=
  ⟨rfl, rfl, rfl⟩
theorem test_pop_V39 : after (fun t => (t.mem.read 100, t.stack)) (push 9 (st [3, 100])) = some (9, []) := by decide
theorem test_pop_V42 : after (fun t => t.fault) (st [3, 40000]) =
    some (some ⟨.stackUnderflow, 0, some 3, 40000⟩) := by decide
theorem test_eq_V53 : after (fun t => (t.mem.read 100, t.pc)) (st [4, 100, 32768, 0]) = some (1, 4) := by decide
theorem test_eq_V51 : after (rp 0) (stR [4, 32768, 1, 2] 0 9) = some (0, 4) := by decide
theorem test_gt_V54 : after (rp 0) (st [5, 32768, 32767, 0]) = some (1, 4) := by decide
theorem test_gt_V55 : after (rp 0) (stR [5, 32768, 3, 3] 0 9) = some (0, 4) := by decide
theorem test_jmp_V62 : after (fun t => t.pc) (stR [6, 32771] 3 200) = some 200 := by decide
theorem test_jmp_V64 : after (fun t => t.fault) (stR [6, 32771] 3 32768) =
    some (some ⟨.outOfRangeAddress, 0, some 6, 32768⟩) := by decide
theorem test_jt_V66 : after (fun t => t.pc) (stR [7, 32768, 6] 0 2) = some 6 := by decide
theorem test_jt_V68 : after (fun t => (t.pc, t.status)) (st [7, 0, 40000]) = some (3, .running) := by decide
theorem test_jf_V70 : after (fun t => t.pc) (st [8, 32768, 20]) = some 20 := by decide
theorem test_jf_V71 : after (fun t => t.pc) (stR [8, 32768, 20] 0 5) = some 3 := by decide
/-- V81, and V84 for a source that is the destination. -/
theorem test_add_V81 : after (rp 0) (st [9, 32768, 32767, 1]) = some (0, 4) := by decide
theorem test_add_V87 : after (fun t => t.mem.read 2) (st [9, 2, 1, 1]) = some 2 := by decide
theorem test_mult_V88 : after (rp 0) (st [10, 32768, 300, 200]) = some (27232, 4) := by decide
theorem test_mult_V89 : after (rp 0) (st [10, 32768, 32767, 32767]) = some (1, 4) := by decide
theorem test_mod_V92 : after (rp 0) (st [11, 32768, 17, 5]) = some (2, 4) := by decide
theorem test_mod_V97 : after (fun t => t.fault) (st [11, 32768, 5, 32769]) =
    some (some ⟨.divideByZero, 0, some 11, 32769⟩) := by decide
theorem test_and_V98 : after (rp 0) (st [12, 32768, 12, 10]) = some (8, 4) := by decide
theorem test_or_V108 : after (rp 3) (stR [13, 32771, 32768, 1] 0 40000) = some (40001, 4) := by decide
theorem test_or_V100 : after (rp 0) (st [13, 32768, 12, 10]) = some (14, 4) := by decide
theorem test_not_V104 : after (rp 0) (st [14, 32768, 21845]) = some (10922, 3) := by decide
theorem test_not_V106 : after (rp 1) (stR [14, 32769, 32768] 0 40000) = some (58303, 3) := by decide
theorem test_rmem_V114 : after (rp 0) (st [15, 32768, 6, 0, 0, 0, 40000]) = some (40000, 3) := by decide
theorem test_rmem_V115 : after (rp 0) (setReg 2 77 (stR [15, 32768, 32769] 1 32770)) = some (77, 3) := by decide
theorem test_wmem_V119 : after (fun t => (t.mem.read 100, t.x[0])) (setReg 1 15 (stR [16, 32768, 32769] 0 100)) =
    some (15, 100) := by decide
theorem test_wmem_V120 : after (rp 1) (stR [16, 32768, 77] 0 32769) = some (77, 3) := by decide
theorem test_call_V72 : after (fun t => (t.stack, t.pc)) (st [17, 5]) = some ([2], 5) := by decide
/-- V74: the return address is not reduced. -/
theorem test_call_V74 :
    after (fun t => (t.stack, t.pc)) { State.reset with mem := [(32766, 17), (32767, 10)], pc := 32766 } =
      some ([32768], 10) := by decide
theorem test_ret_V76 : after (fun t => (t.halted, t.fault)) (st [18]) = some (true, none) := by decide
theorem test_ret_V77 : after (fun t => t.fault) (push 32768 (st [18])) =
    some (some ⟨.outOfRangeAddress, 0, some 18, 32768⟩) := by decide
theorem test_out_V132 : after (fun t => (t.out, t.pc)) (st [19, 300]) = some ([300], 2) := by decide
theorem test_out_V131 : after (fun t => t.out) (stR [19, 32768] 0 8) = some [8] := by decide
theorem test_in_V134 : after (fun t => (t.x[0], t.inq)) { st [20, 32768] with inq := [105, 10] } =
    some (105, [10]) := by decide
theorem test_in_V135 : after (fun t => (t.status, t.pc)) (st [20, 32768]) = some (.waitInput, 0) := by decide
theorem test_noop_V78 : after (fun t => t.pc) { State.reset with mem := [(3, 21)], pc := 3 } = some 4 := by decide
/-- The host's move of V136: the empty line. -/
theorem test_empty_line_V136 :
    after (fun t => (t.inq, t.status)) { st [20, 32768] with status := .waitInput, hostLines := [[]] } =
      some ([10], .running) := by decide
theorem test_fetch_V24 : after (fun t => t.fault) { State.reset with mem := [(32766, 9), (32767, 32768)], pc := 32766 } =
    some (some ⟨.outOfRangeAddress, 32766, some 9, 32768⟩) := by decide
theorem test_fetch_V21 : after (fun t => t.fault) (st [32768]) =
    some (some ⟨.invalidOpcode, 0, some 32768, 32768⟩) := by decide
theorem test_withFetchWord : after (rp 0) (State.reset.withFetchWord 48 0x000580000001) = some (5, 3) := by decide

/-! ### Witnesses: the hypotheses of each statement are met together -/

/-- A running state: register 0 holds 32768, register 1 holds 40000, register 2 holds 0; two words on the stack, one code
in the queue, a code emitted. -/
def w : State :=
  { State.reset with x := #v[32768, 40000, 0, 7, 32767, 32775, 32776, 1], stack := [5, 300], inq := [65], out := [8] }

theorem witness_DecodeOfEncode : (Instr.set (.reg 7) (.invalid 65535)).wellFormed = true := by decide
theorem witness_DecodedWords : decode [1, 32768, 65535, 7] = .ok (.set (.reg 0) (.invalid 65535), [7]) := rfl
theorem witness_OperandWordClass : (32767 : Word).getLsbD 15 = false ∧
    (32775 : Word).extractLsb' 3 13 = 0b1000000000000#13 ∧
    ((32776 : Word).getLsbD 15 = true ∧ (32776 : Word).extractLsb' 3 12 ≠ 0) := by decide
theorem witness_OpcodeAbove21 : (st [22]).status = .running ∧ (st [22]).pc.toNat ≤ 32767 ∧
    21 < ((st [22]).mem.read (st [22]).pc.toNat).toNat := by decide
/-- An instruction that ends at address 32767. -/
theorem witness_StepRuns :
    let s : State := { State.reset with mem := [(32764, 9), (32765, 32768), (32766, 4), (32767, 4)], pc := 32764 }
    s.status = .running ∧
    decode ((List.range 4).map fun k => s.mem.read (s.pc.toNat + k)) =
      .ok (.add (.reg 0) (.lit 4) (.lit 4), []) ∧
    s.pc.toNat + (Instr.add (.reg 0) (.lit 4) (.lit 4)).length ≤ 32768 := ⟨rfl, rfl, by decide⟩
theorem witness_FetchOffTheTop :
    ({ w with pc := 32768 } : State).status = .running ∧ 32767 < ({ w with pc := 32768 } : State).pc.toNat ∧
    (let s : State := { State.reset with mem := [(32767, 2)], pc := 32767 }
     s.status = .running ∧ s.pc.toNat ≤ 32767 ∧ Opcode.ofWord (s.mem.read s.pc.toNat) = some .push ∧
       32768 < s.pc.toNat + Opcode.push.length) := by decide
theorem witness_StoppedCore : ({ w with status := .halted } : State).status = .halted ∧
    ({ w with status := .faulted } : State).status = .faulted := by decide
theorem witness_LineIsDelivered :
    (let s : State := { w with status := .waitInput, hostLines := [[104, 105], []] }
     s.status = .waitInput ∧ s.hostLines = [104, 105] :: [[]]) ∧
    (let s : State := { w with status := .waitInput }
     s.status = .waitInput ∧ s.hostLines = []) ∧ w.status ≠ .waitInput := by decide
/-- The ends of the ranges of CheckNumber, ReadFrom, WriteTo, MemRead, MemWrite, CheckAddress. -/
theorem witness_WordRanges : (32767 : Word).toNat ≤ 32767 ∧ (32768 : Word).toNat = 32768 + (0 : Fin 8).val ∧
    (32775 : Word).toNat = 32768 + (7 : Fin 8).val ∧ 32775 < (32776 : Word).toNat := by decide
theorem witness_Halt : (∃ t, exec .halt w = .next t) ∧
    ∃ s, resetWith [5] = .next s ∧ [5].length ≤ 1 := ⟨⟨_, rfl⟩, _, rfl, by decide⟩
theorem witness_Set : checkNumber (.reg 1) w = .ok 40000 ∧ (Operand.lit 100).isReg = false ∧
    (Operand.invalid 40000).isReg = false := ⟨rfl, rfl, rfl⟩
theorem witness_Push : checkNumber (.reg 1) w = .ok 40000 := rfl
theorem witness_Pop : w.stack = [5] ++ [300] ∧ (Operand.lit 100).valid = true ∧ (Operand.reg 7).valid = true ∧
    (st []).stack = [] ∧ w.stack ≠ [] := by decide
/-- For every `ComputesInto` and `OperandFaults`: operands of each kind, source and destination the same. -/
theorem witness_Computes : checkNumber (.reg 1) w = .ok 40000 ∧ checkNumber (.lit 32767) w = .ok 32767 ∧
    (Operand.reg 1).valid = true ∧ (Operand.lit 0).valid = true := ⟨rfl, rfl, rfl, rfl⟩
theorem witness_Mod : (checkNumber (.lit 5) w = .ok 5 ∧ checkNumber (.reg 1) w = .ok 40000 ∧ (40000 : Word) ≠ 0 ∧
    (Operand.lit 9).valid = true) ∧ (checkNumber (.lit 5) w = .ok 5 ∧ checkNumber (.reg 2) w = .ok 0) :=
  ⟨⟨rfl, rfl, by decide, rfl⟩, rfl, rfl⟩
/-- Targets at and above the end of memory, for `jmp`, `jt`, `jf`, `call`. -/
theorem witness_Jump : (checkNumber (.reg 4) w = .ok 32767 ∧ (32767 : Word).toNat ≤ 32767) ∧
    (checkNumber (.reg 0) w = .ok 32768 ∧ 32767 < (32768 : Word).toNat) := ⟨⟨rfl, by decide⟩, rfl, by decide⟩
theorem witness_Condition : (checkNumber (.reg 0) w = .ok 32768 ∧ (32768 : Word) ≠ 0) ∧
    checkNumber (.reg 2) w = .ok 0 := ⟨⟨rfl, by decide⟩, rfl⟩
/-- The three kinds of address a pointer can resolve to, at the ends of their ranges. -/
theorem witness_Pointer : (checkNumber (.reg 4) w = .ok 32767 ∧ (32767 : Word).toNat ≤ 32767) ∧
    (checkNumber (.reg 5) w = .ok 32775 ∧ (32775 : Word).toNat = 32768 + (7 : Fin 8).val ∧ (32775 : Word).toNat ≤ 32775) ∧
    (checkNumber (.reg 6) w = .ok 32776 ∧ 32775 < (32776 : Word).toNat) ∧ (Operand.reg 4).valid = true :=
  ⟨⟨rfl, by decide⟩, ⟨rfl, by decide, by decide⟩, ⟨rfl, by decide⟩, rfl⟩
theorem witness_Ret : w.stack = [5] ++ [300] ∧ (300 : Word).toNat ≤ 32767 ∧
    (push 32768 w).stack = [5, 300] ++ [32768] ∧ 32767 < (32768 : Word).toNat ∧ (st []).stack = [] := by decide
theorem witness_In : w.inq = 65 :: [] ∧ (Operand.lit 50).valid = true ∧ w.inq ≠ [] ∧ (st []).inq = [] := by decide
theorem witness_Noop : ({ w with pc := 32767 } : State).status = .running ∧ ({ w with pc := 32767 } : State).pc = 32767 ∧
    ∃ t, exec .noop { w with pc := 32767 } = .next t := ⟨rfl, rfl, _, rfl⟩
theorem witness_CallRet : checkNumber (.lit 5) { w with pc := 32765 } = .ok 5 ∧ (5 : Word).toNat ≤ 32767 ∧
    (({ w with pc := 32765 } : State).pc + 2).toNat ≤ 32767 := ⟨rfl, by decide, by decide⟩
theorem witness_StoreIntoCode : checkNumber (.lit 21) w = .ok 21 ∧ checkNumber (.lit 0) w = .ok 0 ∧
    checkNumber (.reg 1) w = .ok 40000 ∧ w.status = .running ∧ w.pc.toNat + 3 = (3 : BitVec 15).toNat ∧
    (21 : Word).toNat = 21 ∧ (0 : Word).toNat = 0 ∧ 21 < (40000 : Word).toNat := ⟨rfl, rfl, rfl, rfl, rfl, rfl, rfl, by decide⟩
/-- Two faults apply at once in each: an invalid value and a destination that is invalid, or set outside its role. -/
theorem witness_FirstRaise : (Operand.lit 4).valid = true ∧ checkNumber (.reg 2) w = .ok 0 ∧
    (checkNumber (.reg 6) w = .ok 32776 ∧ 32775 < (32776 : Word).toNat) ∧ (Operand.invalid 40000).isReg = false ∧
    (st []).stack = [] := ⟨rfl, rfl, ⟨rfl, by decide⟩, rfl, rfl⟩
/-- For the statements about a fault an instruction takes: operands that fit and operands that do not. -/
theorem witness_FaultTaken : (∃ t f, w.status ≠ .faulted ∧ exec (.push (.invalid 40000)) w = .next t ∧
      t.status = .faulted ∧ t.fault = some f) ∧
    ∃ t f, (Instr.rmem (.reg 3) (.reg 6)).rolesFit = true ∧ exec (.rmem (.reg 3) (.reg 6)) w = .next t ∧
      t.status = .faulted ∧ t.fault = some f ∧ f.cause = .invalidOperand :=
  ⟨⟨_, _, by decide, rfl, rfl, rfl⟩, _, _, rfl, rfl, rfl, rfl, rfl⟩
theorem witness_FatalFault : ∃ t, step (st [22]) = .next t ∧ t.status = .faulted := ⟨_, rfl, rfl⟩
/-- For the frames: a store to a cell, a write to a register, an instruction with no target. -/
theorem witness_Frames :
    (∃ t, exec (.add (.lit 100) (.lit 4) (.lit 4)) w = .next t ∧ t.status ≠ .faulted ∧
      ∀ n : BitVec 15, (Instr.add (.lit 100) (.lit 4) (.lit 4)).target w = some (.lit n) → 99 ≠ n.toNat) ∧
    (∃ t, exec (.wmem (.reg 5) (.lit 4)) w = .next t ∧ t.status ≠ .faulted ∧
      (Instr.wmem (.reg 5) (.lit 4)).target w ≠ some (.reg 5)) ∧
    ∃ t, exec (.out (.lit 4)) w = .next t ∧ t.status ≠ .faulted ∧ (Instr.out (.lit 4)).target w ≠ some (.reg 0) := by
  refine ⟨⟨_, rfl, by decide, fun n h => ?_⟩, ⟨_, rfl, by decide, by decide⟩, _, rfl, by decide, by decide⟩
  simp only [Instr.target, Option.some.injEq, Operand.lit.injEq] at h
  rw [← h]
  decide
theorem witness_PcTable : ∃ t, exec (.jt (.reg 0) (.lit 6)) w = .next t ∧ t.status ≠ .faulted ∧
    ∀ o ∈ (Instr.jt (.reg 0) (.lit 6)).operands, ∀ v, checkNumber o w = .ok v →
      (match checkNumber o w with | .ok u => u | .error _ => 0) = v :=
  ⟨_, rfl, by decide, fun _ _ _ h => by rw [h]⟩
theorem witness_Halts : (∃ t, step (st [0]) = .next t ∧ t.status = .halted) ∧
    ∃ t, step (st [18]) = .next t ∧ t.status = .halted := ⟨⟨_, rfl, rfl⟩, _, rfl, rfl⟩
theorem witness_Waits : (∃ t, step (st [20, 32768]) = .next t ∧ t.status = .waitInput) ∧
    ∃ t, step { st [20, 32768] with status := .waitInput } = .next t ∧ t.status = .waitInput :=
  ⟨⟨_, rfl, rfl⟩, _, rfl, rfl⟩
theorem witness_OutputSteps : ∃ t, step (st [19, 65]) = .next t ∧ Reaches (st [19, 65]) t :=
  ⟨_, rfl, .next .here rfl⟩
/-- A state with the invariant that is not the reset state, and its step. -/
theorem witness_Invariant : State.Inv { w with mem := [(0, 21)] } ∧ ∃ t, step { w with mem := [(0, 21)] } = .next t :=
  ⟨⟨by decide, by decide, by decide, fun _ h => (by cases h), fun h => (by cases h)⟩, _, rfl⟩
/-- The waiting part of the invariant is met in a waiting state. -/
theorem witness_InvariantWaiting : State.Inv { st [20, 32768] with status := .waitInput } :=
  ⟨by decide, by decide, by decide, fun _ h => (by cases h), fun _ => ⟨rfl, .reg 0, rfl⟩⟩
theorem witness_ResetLoads : [9, 32768, 4, 4].length ≤ 32768 ∧ 32768 < (List.replicate 32769 (0 : Word)).length := by
  refine ⟨by decide, ?_⟩
  rw [List.length_replicate]
  decide

end Sys2Proof.Tests
end

namespace Sys2Proof.Machine

/-! ## What an instruction can do, said once -/

/-- `Completes s i t`: the instruction `i`, run in `s`, raised nothing and left `t`. One constructor per way an
instruction can end without a fault, with the checks it passed; the instructions that store one value at their target
and change nothing else but pc share `stored`. -/
inductive Completes (s : State) : Instr → State → Prop where
  /-- All instructions with a destination but `pop` and `in`. -/
  | stored {i a v u} : i.opcode ∉ [Opcode.pop, .inp] → i.target s = some a → writeTo a v s = .ok u →
      Completes s i (advance i.length u)
  | popped {a l v u} : s.stack = l ++ [v] → writeTo a v { s with stack := l } = .ok u →
      Completes s (.pop a) (advance (Instr.pop a).length u)
  | received {a k rest u} : s.inq = k :: rest → writeTo a k { s with inq := rest } = .ok u →
      Completes s (.inp a) (advance (Instr.inp a).length u)
  | waits {a} : s.inq = [] → Completes s (.inp a) (setWaiting s)
  | pushed {a v} : checkNumber a s = .ok v → Completes s (.push a) (advance (Instr.push a).length (push v s))
  | emitted {a v} : checkNumber a s = .ok v → Completes s (.out a) (advance (Instr.out a).length (emit v s))
  | jumped {a t} : checkNumber a s = .ok t → t.toNat ≤ 32767 → Completes s (.jmp a) (setPc t s)
  | jtTaken {a b c t} : checkNumber a s = .ok c → c ≠ 0 → checkNumber b s = .ok t → t.toNat ≤ 32767 →
      Completes s (.jt a b) (setPc t s)
  | jtNotTaken {a b} : checkNumber a s = .ok 0 → Completes s (.jt a b) (advance (Instr.jt a b).length s)
  | jfTaken {a b t} : checkNumber a s = .ok 0 → checkNumber b s = .ok t → t.toNat ≤ 32767 →
      Completes s (.jf a b) (setPc t s)
  | jfNotTaken {a b c} : checkNumber a s = .ok c → c ≠ 0 → Completes s (.jf a b) (advance (Instr.jf a b).length s)
  | called {a t} : checkNumber a s = .ok t → t.toNat ≤ 32767 → Completes s (.call a) (setPc t (push (s.pc + 2) s))
  | returned {l t} : s.stack = l ++ [t] → t.toNat ≤ 32767 → Completes s .ret (setPc t { s with stack := l })
  | returnHalts : s.stack = [] → Completes s .ret (setHalted s)
  | halts : Completes s .halt (setHalted s)
  | advances : Completes s .noop (advance Instr.noop.length s)

/-- What an instruction that raises has not touched by then (R163): a `call` may have pushed, a `pop`, `ret` or `in` may
have removed a word. -/
def KeptUntilRaise (s u : State) : Prop := u.pc = s.pc ∧ u.out = s.out ∧ u.hostLines = s.hostLines

/-- `Raises s i t`: the instruction `i`, run in `s`, took a fault its row of R166 lists and left `t`. -/
def Raises (s : State) (i : Instr) (t : State) : Prop :=
  ∃ r u, r.cause ∈ i.causes ∧ KeptUntilRaise s u ∧ t = faultState (some i.opcode.word) r u

/-- The outcome is a next state, in which the instruction has completed or has taken a fault. -/
def Answers (s : State) (i : Instr) (o : Result) : Prop := ∃ t, o = .next t ∧ (Completes s i t ∨ Raises s i t)

theorem Completes.answers {s t : State} {i : Instr} (h : Completes s i t) : Answers s i (.next t) :=
  ⟨t, rfl, .inl h⟩

theorem KeptUntilRaise.refl (s : State) : KeptUntilRaise s s := ⟨rfl, rfl, rfl⟩

theorem Raises.keeps {s t : State} {i : Instr} (h : Raises s i t) :
    t.status = .faulted ∧ t.pc = s.pc ∧ t.out = s.out ∧ t.hostLines = s.hostLines := by
  obtain ⟨r, u, -, ⟨hpc, hout, hlines⟩, rfl⟩ := h
  exact ⟨rfl, hpc, hout, hlines⟩

/-! ### The shared endings -/

section
variable {s u : State} {i : Instr}

theorem answers_of_raiseIn {r : Raise} (hk : KeptUntilRaise s u)
    (hc : r.cause ∈ i.causes := by simp [Instr.causes]) : Answers s i (raiseIn i.opcode r u) :=
  ⟨_, rfl, .inr ⟨r, u, hc, hk, rfl⟩⟩

/-- The ending `WriteTo, advance`, entered in `u`. -/
theorem answers_of_storeAndAdvance {a : Operand} {v : Word} (hk : KeptUntilRaise s u)
    (hd : ∀ t, writeTo a v u = .ok t → Completes s i (advance i.length t))
    (hc : Cause.invalidOperand ∈ i.causes := by simp [Instr.causes]) :
    Answers s i (storeAndAdvance i.opcode a v u) := by
  unfold storeAndAdvance
  rcases writeTo_cases a v u with ⟨n, -, h⟩ | ⟨r, -, h⟩ | ⟨w, -, h⟩ <;> simp only [h]
  · exact (hd _ h).answers
  · exact (hd _ h).answers
  · exact answers_of_raiseIn hk hc

/-- The same ending, entered with nothing changed before. -/
theorem answers_of_stored {a : Operand} {v : Word} (ht : i.target s = some a)
    (hop : i.opcode ∉ [Opcode.pop, .inp] := by simp [Instr.opcode])
    (hc : Cause.invalidOperand ∈ i.causes := by simp [Instr.causes]) :
    Answers s i (storeAndAdvance i.opcode a v s) :=
  answers_of_storeAndAdvance (.refl s) (fun _ => .stored hop ht) hc

/-- The shape `op a b c` of R79. -/
theorem answers_of_binaryOp {a : Operand} (f : Word → Word → Word) (b c : Operand) (ht : i.target s = some a)
    (hop : i.opcode ∉ [Opcode.pop, .inp] := by simp [Instr.opcode])
    (hc : Cause.invalidOperand ∈ i.causes := by simp [Instr.causes])
    (hn : Cause.invalidNumber ∈ i.causes := by simp [Instr.causes]) :
    Answers s i (binaryOp i.opcode f a b c s) := by
  rcases binaryOp_cases i.opcode f a b c s with ⟨vb, vc, -, -, h⟩ | ⟨w, -, h⟩ <;> rw [h]
  · exact answers_of_stored ht hop hc
  · exact answers_of_raiseIn (r := ⟨_, w⟩) (.refl s) hn

/-- A control transfer, entered in `u`. -/
theorem answers_of_transferTo {t : Word} (hk : KeptUntilRaise s u)
    (hd : t.toNat ≤ 32767 → Completes s i (setPc t u))
    (hc : Cause.outOfRangeAddress ∈ i.causes := by simp [Instr.causes]) : Answers s i (transferTo i.opcode t u) := by
  rcases transferTo_cases i.opcode t u with ⟨ht, h⟩ | ⟨-, h⟩ <;> rw [h]
  · exact (hd ht).answers
  · exact answers_of_raiseIn (r := ⟨_, t⟩) hk hc

/-- A jump to a target operand, entered in `u`. -/
theorem answers_of_jumpTo {a : Operand} (hk : KeptUntilRaise s u)
    (hd : ∀ t, checkNumber a u = .ok t → t.toNat ≤ 32767 → Completes s i (setPc t u))
    (hn : Cause.invalidNumber ∈ i.causes := by simp [Instr.causes])
    (hc : Cause.outOfRangeAddress ∈ i.causes := by simp [Instr.causes]) :
    Answers s i (jumpTo i.opcode a u) := by
  rcases jumpTo_cases i.opcode a u with ⟨t, ht, h⟩ | ⟨w, -, h⟩ <;> rw [h]
  · exact answers_of_transferTo hk (hd t ht) hc
  · exact answers_of_raiseIn (r := ⟨_, w⟩) hk hn

end

/-! ### The instructions with steps of their own -/

theorem execSet_answers (a b : Operand) (s : State) : Answers s (.set a b) (execSet a b s) := by
  have hbad : ∀ w, Answers s (.set a b) (raiseIn .set ⟨.invalidRegisterTarget, w⟩ s) := fun w =>
    answers_of_raiseIn (.refl s)
  cases a with
  | lit n => exact hbad _
  | invalid w => exact hbad _
  | reg r =>
    rcases checkNumber_cases b s with ⟨v, -, hb⟩ | ⟨w, -, hb⟩ <;> simp only [execSet, hb]
    · exact (Completes.stored (i := .set (.reg r) b) (v := v) (by simp [Instr.opcode]) rfl rfl).answers
    · exact answers_of_raiseIn (.refl s)

theorem execPush_answers (a : Operand) (s : State) : Answers s (.push a) (execPush a s) := by
  rcases checkNumber_cases a s with ⟨v, -, ha⟩ | ⟨w, -, ha⟩ <;> simp only [execPush, ha]
  · exact (Completes.pushed ha).answers
  · exact answers_of_raiseIn (.refl s)

theorem execPop_answers (a : Operand) (s : State) : Answers s (.pop a) (execPop a s) := by
  rcases pop_cases s with ⟨-, h⟩ | ⟨l, v, hs, h⟩ <;> simp only [execPop, h]
  · exact answers_of_raiseIn (.refl s)
  · exact answers_of_storeAndAdvance ⟨rfl, rfl, rfl⟩ fun _ => .popped hs

theorem execJt_answers (a b : Operand) (s : State) : Answers s (.jt a b) (execJt a b s) := by
  rcases checkNumber_cases a s with ⟨c, -, ha⟩ | ⟨w, -, ha⟩ <;> simp only [execJt, ha]
  · by_cases hc : c = 0
    · subst hc
      exact (Completes.jtNotTaken ha).answers
    · rw [if_pos hc]
      exact answers_of_jumpTo (.refl s) fun _ => .jtTaken ha hc
  · exact answers_of_raiseIn (.refl s)

theorem execJf_answers (a b : Operand) (s : State) : Answers s (.jf a b) (execJf a b s) := by
  rcases checkNumber_cases a s with ⟨c, -, ha⟩ | ⟨w, -, ha⟩ <;> simp only [execJf, ha]
  · by_cases hc : c = 0
    · subst hc
      exact answers_of_jumpTo (.refl s) fun _ => .jfTaken ha
    · rw [if_neg hc]
      exact (Completes.jfNotTaken ha hc).answers
  · exact answers_of_raiseIn (.refl s)

theorem execMod_answers (a b c : Operand) (s : State) : Answers s (.mod a b c) (execMod a b c s) := by
  rcases checkNumber_cases b s with ⟨vb, -, hb⟩ | ⟨w, -, hb⟩ <;> simp only [execMod, hb]
  · rcases checkNumber_cases c s with ⟨vc, -, hc⟩ | ⟨w, -, hc⟩ <;> simp only [hc]
    · split
      · exact answers_of_raiseIn (.refl s)
      · exact answers_of_stored rfl
    · exact answers_of_raiseIn (.refl s)
  · exact answers_of_raiseIn (.refl s)

theorem execNot_answers (a b : Operand) (s : State) : Answers s (.not a b) (execNot a b s) := by
  rcases checkNumber_cases b s with ⟨v, -, hb⟩ | ⟨w, -, hb⟩ <;> simp only [execNot, hb]
  · exact answers_of_stored rfl
  · exact answers_of_raiseIn (.refl s)

theorem execRmem_answers (a b : Operand) (s : State) : Answers s (.rmem a b) (execRmem a b s) := by
  rcases checkNumber_cases b s with ⟨t, -, hb⟩ | ⟨w, -, hb⟩ <;> simp only [execRmem, hb]
  · rcases readFrom_cases (.ofWord t) s with ⟨v, hv⟩ | ⟨w, -, hv⟩ <;> simp only [hv]
    · exact answers_of_stored rfl
    · exact answers_of_raiseIn (.refl s)
  · exact answers_of_raiseIn (.refl s)

theorem execWmem_answers (a b : Operand) (s : State) : Answers s (.wmem a b) (execWmem a b s) := by
  rcases checkNumber_cases a s with ⟨t, -, ha⟩ | ⟨w, -, ha⟩ <;> simp only [execWmem, ha]
  · rcases checkNumber_cases b s with ⟨v, -, hb⟩ | ⟨w, -, hb⟩ <;> simp only [hb]
    · exact answers_of_stored (by simp [Instr.target, ha])
    · exact answers_of_raiseIn (.refl s)
  · exact answers_of_raiseIn (.refl s)

theorem execCall_answers (a : Operand) (s : State) : Answers s (.call a) (execCall a s) := by
  have hcheck : checkNumber a (push (s.pc + 2) s) = checkNumber a s := checkNumber_congr a rfl
  exact answers_of_jumpTo ⟨rfl, rfl, rfl⟩ fun t ht => .called (hcheck.symm.trans ht)

theorem execRet_answers (s : State) : Answers s .ret (execRet s) := by
  rcases pop_cases s with ⟨hs, h⟩ | ⟨l, t, hs, h⟩ <;> simp only [execRet, h]
  · exact (Completes.returnHalts hs).answers
  · exact answers_of_transferTo ⟨rfl, rfl, rfl⟩ (.returned hs)

theorem execOut_answers (a : Operand) (s : State) : Answers s (.out a) (execOut a s) := by
  rcases checkNumber_cases a s with ⟨v, -, ha⟩ | ⟨w, -, ha⟩ <;> simp only [execOut, ha]
  · exact (Completes.emitted ha).answers
  · exact answers_of_raiseIn (.refl s)

theorem execIn_answers (a : Operand) (s : State) : Answers s (.inp a) (execIn a s) := by
  unfold execIn
  split
  · next hq => exact (Completes.waits hq).answers
  · next hq => exact answers_of_storeAndAdvance ⟨rfl, rfl, rfl⟩ fun _ => .received hq

/-- Every instruction, in every state, completes or takes a fault (R79, R83). -/
theorem exec_answers (i : Instr) (s : State) : Answers s i (exec i s) := by
  cases i with
  | halt => exact Completes.halts.answers
  | set a b => exact execSet_answers a b s
  | push a => exact execPush_answers a s
  | pop a => exact execPop_answers a s
  | eq a b c => exact answers_of_binaryOp aluEq b c rfl
  | gt a b c => exact answers_of_binaryOp aluGt b c rfl
  | jmp a => exact answers_of_jumpTo (.refl s) fun _ => .jumped
  | jt a b => exact execJt_answers a b s
  | jf a b => exact execJf_answers a b s
  | add a b c => exact answers_of_binaryOp aluAdd b c rfl
  | mult a b c => exact answers_of_binaryOp aluMult b c rfl
  | mod a b c => exact execMod_answers a b c s
  | and a b c => exact answers_of_binaryOp aluAnd b c rfl
  | or a b c => exact answers_of_binaryOp aluOr b c rfl
  | not a b => exact execNot_answers a b s
  | rmem a b => exact execRmem_answers a b s
  | wmem a b => exact execWmem_answers a b s
  | call a => exact execCall_answers a s
  | ret => exact execRet_answers s
  | out a => exact execOut_answers a s
  | inp a => exact execIn_answers a s
  | noop => exact Completes.advances.answers

/-- Everything an instruction that answers a next state can have done. -/
theorem exec_cases {i : Instr} {s t : State} (h : exec i s = .next t) : Completes s i t ∨ Raises s i t := by
  obtain ⟨t', ht', hcases⟩ := exec_answers i s
  rw [h] at ht'
  cases ht'
  exact hcases

/-- An instruction that took no fault has completed. -/
theorem completes_of_not_faulted {i : Instr} {s t : State} (h : exec i s = .next t) (hf : t.status ≠ .faulted) :
    Completes s i t :=
  (exec_cases h).resolve_right fun hr => hf hr.keeps.1

/-! ## What an instruction that completes leaves unchanged -/

/-- `WriteTo` changes no field but memory and registers (R75). -/
theorem writeTo_keeps {a : Operand} {v : Word} {s u : State} (h : writeTo a v s = .ok u) :
    u.pc = s.pc ∧ SameButStore s u := by
  rcases writeTo_cases a v s with ⟨n, -, hw⟩ | ⟨r, -, hw⟩ | ⟨w, -, hw⟩ <;> rw [hw] at h <;> cases h
  · exact ⟨rfl, rfl, rfl, rfl, rfl, rfl, rfl⟩
  · exact ⟨rfl, rfl, rfl, rfl, rfl, rfl, rfl⟩

/-- `WriteTo` changes no register but the one it names (R75). -/
theorem writeTo_keeps_reg {a : Operand} {v : Word} {s u : State} {q : Fin 8} (h : writeTo a v s = .ok u)
    (ha : a ≠ .reg q) : u.x[q] = s.x[q] := by
  rcases writeTo_cases a v s with ⟨n, -, hw⟩ | ⟨r, rfl, hw⟩ | ⟨w, -, hw⟩ <;> rw [hw] at h <;> cases h
  · rfl
  · have hrq : r.val ≠ q.val := fun e => ha (congrArg Operand.reg (Fin.ext e))
    exact Vector.getElem_set_ne r.isLt q.isLt hrq

/-- Every instruction that stores, but `pop` and `in`, advances by its length in the table of R16. -/
theorem pcAfter_of_target {i : Instr} {s : State} {a : Operand} (hop : i.opcode ∉ [Opcode.pop, .inp])
    (ht : i.target s = some a) (v : Operand → Word) : i.pcAfter v s = s.pc + BitVec.ofNat 16 i.length := by
  cases i with
  | pop | inp => simp [Instr.opcode] at hop
  | halt | push | jmp | jt | jf | call | ret | out | noop => cases ht
  | set | eq | gt | add | mult | mod | and | or | not | rmem | wmem => rfl

namespace Completes

variable {s t : State} {i : Instr}

theorem keeps_reg (h : Completes s i t) {q : Fin 8} (hq : i.target s ≠ some (.reg q)) : t.x[q] = s.x[q] := by
  have hdest : ∀ a, i.target s = some a → a ≠ .reg q := fun a ht e => hq (e ▸ ht)
  cases h with
  | stored _ ht hw => exact (writeTo_keeps_reg hw (hdest _ ht) :)
  | popped _ hw => exact (writeTo_keeps_reg hw (hdest _ rfl) :)
  | received _ hw => exact (writeTo_keeps_reg hw (hdest _ rfl) :)
  | waits | pushed | emitted | jumped | jtTaken | jtNotTaken | jfTaken | jfNotTaken | called | returned | returnHalts
  | halts | advances => rfl

theorem keeps_memWf (h : Completes s i t) (hs : s.mem.wf) : t.mem.wf := by
  cases h with
  | stored _ _ hw | popped _ hw | received _ hw => exact (writeTo_keeps_wf hw hs :)
  | waits | pushed | emitted | jumped | jtTaken | jtNotTaken | jfTaken | jfNotTaken | called | returned | returnHalts
  | halts | advances => exact hs

/-- The instruction lay inside memory, or pc went to a checked target: nothing leaves the 32769 values of R17. -/
theorem pc_le (h : Completes s i t) (hin : s.pc.toNat + i.length ≤ 32768) : t.pc.toNat ≤ 32768 := by
  have hadv : ∀ u : State, u.pc = s.pc → (advance i.length u).pc.toNat ≤ 32768 := fun u hu => by
    rw [advance_pc, hu, BitVec.toNat_add, BitVec.toNat_ofNat]
    omega
  cases h with
  | stored _ _ hw | popped _ hw | received _ hw => exact hadv _ (writeTo_keeps hw).1
  | pushed | emitted | jtNotTaken | jfNotTaken | advances => exact hadv _ rfl
  | jumped _ ht | jtTaken _ _ _ ht | jfTaken _ _ ht | called _ ht | returned _ ht => exact Nat.le_succ_of_le ht
  | waits | returnHalts | halts => exact Nat.le_of_add_right_le hin

/-- The status after an instruction that completed: kept, HALTED after `halt` and an empty `ret`, WAIT_INPUT after an
`in` on an empty queue (R18, R19). -/
theorem status_cases (h : Completes s i t) :
    t.status = s.status ∨
    (t.status = .halted ∧ (i = .halt ∨ i = .ret ∧ s.stack = [])) ∨
    (t = setWaiting s ∧ s.inq = [] ∧ ∃ a, i = .inp a) := by
  cases h with
  | stored _ _ hw | popped _ hw | received _ hw =>
    obtain ⟨-, -, -, -, hst, -, -⟩ := writeTo_keeps hw
    exact .inl hst
  | pushed | emitted | jumped | jtTaken | jtNotTaken | jfTaken | jfNotTaken | called | returned | advances =>
    exact .inl rfl
  | waits hq => exact .inr (.inr ⟨rfl, hq, _, rfl⟩)
  | returnHalts hs => exact .inr (.inl ⟨rfl, .inr ⟨rfl, hs⟩⟩)
  | halts => exact .inr (.inl ⟨rfl, .inl rfl⟩)

/-- Which instructions change which of the fields beside memory, registers and pc. -/
theorem keeps_rest (h : Completes s i t) :
    (i.opcode ∉ [Opcode.push, .pop, .call, .ret] → t.stack = s.stack) ∧ (i.opcode ≠ .inp → t.inq = s.inq) ∧
    (i.opcode ≠ .out → t.out = s.out) ∧ (i.opcode ∉ [Opcode.halt, .ret, .inp] → t.status = s.status) ∧
    t.fault = s.fault ∧ t.hostLines = s.hostLines := by
  cases h with
  | stored _ _ hw =>
    obtain ⟨-, hstack, hinq, hout, hst, hf, hl⟩ := writeTo_keeps hw
    exact ⟨fun _ => hstack, fun _ => hinq, fun _ => hout, fun _ => hst, hf, hl⟩
  | popped _ hw =>
    obtain ⟨-, -, hinq, hout, hst, hf, hl⟩ := writeTo_keeps hw
    exact ⟨fun hop => absurd (by simp [Instr.opcode]) hop, fun _ => hinq, fun _ => hout, fun _ => hst, hf, hl⟩
  | received _ hw =>
    obtain ⟨-, hstack, -, hout, hst, hf, hl⟩ := writeTo_keeps hw
    exact ⟨fun _ => hstack, fun hop => absurd rfl hop, fun _ => hout, fun _ => hst, hf, hl⟩
  | waits | pushed | emitted | jumped | jtTaken | jtNotTaken | jfTaken | jfNotTaken | called | returned | returnHalts
  | halts | advances => simp [Instr.opcode]

/-- The table of pc advances (R16). -/
theorem pc_eq (h : Completes s i t) {v : Operand → Word}
    (hv : ∀ o ∈ i.operands, ∀ w, checkNumber o s = .ok w → v o = w) : t.pc = i.pcAfter v s := by
  cases h with
  | stored hop ht hw => rw [pcAfter_of_target hop ht, advance_pc, (writeTo_keeps hw).1]
  | popped _ hw => rw [advance_pc, (writeTo_keeps hw).1]; rfl
  | received hq hw =>
    rw [advance_pc, (writeTo_keeps hw).1]
    simp [Instr.pcAfter, Instr.length, Instr.opcode, Opcode.length, hq]
  | waits hq => simp [Instr.pcAfter, hq]
  | pushed | emitted | halts | advances => rfl
  | jumped ha | called ha => exact (hv _ (by simp [Instr.operands]) _ ha).symm
  | jtTaken ha hc hb =>
    rw [Instr.pcAfter, hv _ (by simp [Instr.operands]) _ ha, hv _ (by simp [Instr.operands]) _ hb, if_pos hc]; rfl
  | jtNotTaken ha => rw [Instr.pcAfter, hv _ (by simp [Instr.operands]) _ ha, if_neg (not_not.mpr rfl)]; rfl
  | jfTaken ha hb =>
    rw [Instr.pcAfter, hv _ (by simp [Instr.operands]) _ ha, hv _ (by simp [Instr.operands]) _ hb, if_pos rfl]; rfl
  | jfNotTaken ha hc => rw [Instr.pcAfter, hv _ (by simp [Instr.operands]) _ ha, if_neg hc]; rfl
  | returned hs => simp [Instr.pcAfter, hs]
  | returnHalts hs => simp [Instr.pcAfter, hs]

end Completes

/-! ## The invariant -/

theorem State.Inv.fault_eq_none {s : State} (hi : s.Inv) (hs : s.status ≠ .faulted) : s.fault = none :=
  Option.not_isSome_iff_eq_none.mp fun h => hs (hi.recordIff.mp h)

/-- The state a fault leaves has the invariant, whatever its free value is (R160). -/
theorem faultState_inv {s : State} (hpc : s.pc.toNat ≤ 32768) (op : Option Word) (r : Raise) :
    (faultState op r s).Inv where
  memWf := faultState_wf op r s
  pcBound := hpc
  recordIff := iff_of_true rfl rfl
  recordPc := fun _ hf => by cases hf; rfl
  waitsAtIn := nofun

/-- An instruction that was fetched and completed keeps the invariant. -/
theorem State.Inv.of_completes {s t : State} {i : Instr} (hi : s.Inv) (hs : s.status = .running)
    (hf : fetchInstr s = .ok i) (hin : s.pc.toNat + i.length ≤ 32768) (h : Completes s i t) : t.Inv := by
  have hnone : t.fault = none := by
    obtain ⟨-, -, -, -, hfault, -⟩ := h.keeps_rest
    rw [hfault, hi.fault_eq_none (by simp [hs])]
  have hstatus : t.status ≠ .faulted ∧ (t.status = .waitInput → t.inq = [] ∧ ∃ a, fetchInstr t = .ok (.inp a)) := by
    rcases h.status_cases with ht | ⟨ht, -⟩ | ⟨rfl, hq, a, rfl⟩
    · simp [ht, hs]
    · simp [ht]
    · have hfetch : fetchInstr (setWaiting s) = fetchInstr s := fetchInstr_congr rfl rfl
      exact ⟨nofun, fun _ => ⟨hq, a, hfetch.trans hf⟩⟩
  exact ⟨h.keeps_memWf hi.memWf, h.pc_le hin, by simp [hnone, hstatus.1], by simp [hnone], hstatus.2⟩

/-- The wait keeps the invariant, whether a line is delivered or not. -/
theorem State.Inv.of_awaitLine {s t : State} (hi : s.Inv) (hs : s.status = .waitInput) (h : awaitLine s = .next t) :
    t.Inv := by
  rcases awaitLine_cases hs with ⟨-, ht⟩ | ⟨line, more, -, ht⟩ <;> rw [ht] at h <;> cases h
  · exact hi
  · have hnone : s.fault = none := hi.fault_eq_none (by simp [hs])
    exact ⟨hi.memWf, hi.pcBound, by simp [hnone], by simp [hnone], nofun⟩

/-- Settles O57: the three kinds of step (`step_cases`) each keep the invariant. -/
theorem everyStepKeepsTheInvariant : Obligations.EveryStepKeepsTheInvariant := by
  intro s t hi h
  rcases step_cases h with ⟨hs, i, hf, hin, hx⟩ | ⟨-, e, -, rfl⟩ | ⟨hs, hx⟩
  · rcases exec_cases hx with hc | ⟨r, u, -, ⟨hpc, -, -⟩, rfl⟩
    · exact hi.of_completes hs hf hin hc
    · exact faultState_inv (hpc ▸ hi.pcBound) _ _
  · exact faultState_inv hi.pcBound _ _
  · exact hi.of_awaitLine hs hx

/-! ## The output is written and never read -/

/-- The state in which the words `o` had been emitted before everything else. -/
def State.withEarlierOut (o : List Word) (s : State) : State := { s with out := o ++ s.out }

/-- A result with its next state mapped. -/
def mapNext (f : State → State) : Result → Result
  | .next t => .next (f t)
  | .fault r => .fault r
  | .refused r => .refused r

section
variable (o : List Word) (s : State)

theorem withEarlierOut_status : (s.withEarlierOut o).status = s.status := rfl
theorem withEarlierOut_inq : (s.withEarlierOut o).inq = s.inq := rfl
theorem withEarlierOut_hostLines : (s.withEarlierOut o).hostLines = s.hostLines := rfl

theorem checkNumber_withEarlierOut (a : Operand) : checkNumber a (s.withEarlierOut o) = checkNumber a s :=
  checkNumber_congr a rfl

theorem readFrom_withEarlierOut (a : Operand) : readFrom a (s.withEarlierOut o) = readFrom a s := by
  cases a <;> rfl

theorem raiseIn_withEarlierOut (op : Opcode) (r : Raise) :
    raiseIn op r (s.withEarlierOut o) = mapNext (State.withEarlierOut o) (raiseIn op r s) := rfl

theorem storeAndAdvance_withEarlierOut (op : Opcode) (a : Operand) (v : Word) :
    storeAndAdvance op a v (s.withEarlierOut o) = mapNext (State.withEarlierOut o) (storeAndAdvance op a v s) := by
  cases a with
  | lit n => simp only [storeAndAdvance, writeTo_lit]; rfl
  | reg r => rfl
  | invalid w => rfl

theorem binaryOp_withEarlierOut (op : Opcode) (f : Word → Word → Word) (a b c : Operand) :
    binaryOp op f a b c (s.withEarlierOut o) = mapNext (State.withEarlierOut o) (binaryOp op f a b c s) := by
  simp only [binaryOp, checkNumber_withEarlierOut, storeAndAdvance_withEarlierOut, raiseIn_withEarlierOut]
  cases checkNumber b s with
  | error r => rfl
  | ok vb => cases checkNumber c s <;> rfl

theorem transferTo_withEarlierOut (op : Opcode) (t : Word) :
    transferTo op t (s.withEarlierOut o) = mapNext (State.withEarlierOut o) (transferTo op t s) := by
  unfold transferTo
  cases checkAddress t <;> rfl

theorem jumpTo_withEarlierOut (op : Opcode) (a : Operand) :
    jumpTo op a (s.withEarlierOut o) = mapNext (State.withEarlierOut o) (jumpTo op a s) := by
  simp only [jumpTo, checkNumber_withEarlierOut, transferTo_withEarlierOut, raiseIn_withEarlierOut]
  cases checkNumber a s <;> rfl

theorem pop_withEarlierOut :
    pop (s.withEarlierOut o) = (pop s).map fun p => (p.1, p.2.withEarlierOut o) := by
  rcases pop_cases s with ⟨hs, h⟩ | ⟨l, v, hs, h⟩ <;> rw [h]
  · exact pop_nil hs
  · exact pop_append hs

/-- No instruction reads the output (R26). -/
theorem exec_withEarlierOut (i : Instr) :
    exec i (s.withEarlierOut o) = mapNext (State.withEarlierOut o) (exec i s) := by
  cases i with
  | halt | noop => rfl
  | eq a b c | gt a b c | add a b c | mult a b c | and a b c | or a b c => exact binaryOp_withEarlierOut o s _ _ a b c
  | jmp a => exact jumpTo_withEarlierOut o s .jmp a
  | call a => exact jumpTo_withEarlierOut o (push (s.pc + 2) s) .call a
  | set a b =>
    simp only [exec, execSet, checkNumber_withEarlierOut]
    cases a with
    | lit | invalid => rfl
    | reg r => cases checkNumber b s <;> rfl
  | push a =>
    simp only [exec, execPush, checkNumber_withEarlierOut]
    cases checkNumber a s <;> rfl
  | pop a =>
    simp only [exec, execPop, pop_withEarlierOut]
    cases pop s with
    | none => rfl
    | some p => exact storeAndAdvance_withEarlierOut o p.2 .pop a p.1
  | jt a b =>
    simp only [exec, execJt, checkNumber_withEarlierOut, jumpTo_withEarlierOut]
    cases checkNumber a s with
    | error r => rfl
    | ok c => dsimp only; split <;> rfl
  | jf a b =>
    simp only [exec, execJf, checkNumber_withEarlierOut, jumpTo_withEarlierOut]
    cases checkNumber a s with
    | error r => rfl
    | ok c => dsimp only; split <;> rfl
  | mod a b c =>
    simp only [exec, execMod, checkNumber_withEarlierOut, storeAndAdvance_withEarlierOut, raiseIn_withEarlierOut]
    cases checkNumber b s with
    | error r => rfl
    | ok vb =>
      cases checkNumber c s with
      | error r => rfl
      | ok vc => dsimp only; split <;> rfl
  | not a b =>
    simp only [exec, execNot, checkNumber_withEarlierOut, storeAndAdvance_withEarlierOut]
    cases checkNumber b s <;> rfl
  | rmem a b =>
    simp only [exec, execRmem, checkNumber_withEarlierOut, readFrom_withEarlierOut, storeAndAdvance_withEarlierOut]
    cases checkNumber b s with
    | error r => rfl
    | ok t => dsimp only; cases readFrom (.ofWord t) s <;> rfl
  | wmem a b =>
    simp only [exec, execWmem, checkNumber_withEarlierOut, storeAndAdvance_withEarlierOut]
    cases checkNumber a s with
    | error r => rfl
    | ok t => cases checkNumber b s <;> rfl
  | ret =>
    simp only [exec, execRet, pop_withEarlierOut]
    cases pop s with
    | none => rfl
    | some p => exact transferTo_withEarlierOut o p.2 .ret p.1
  | out a =>
    simp only [exec, execOut, checkNumber_withEarlierOut]
    cases checkNumber a s with
    | error r => rfl
    | ok v => simp [mapNext, State.withEarlierOut, emit, advance]
  | inp a =>
    simp only [exec, execIn, withEarlierOut_inq]
    cases s.inq with
    | nil => rfl
    | cons k rest => exact storeAndAdvance_withEarlierOut o { s with inq := rest } .inp a k

theorem runInstr_withEarlierOut : runInstr (s.withEarlierOut o) = mapNext (State.withEarlierOut o) (runInstr s) := by
  have hf : fetchInstr (s.withEarlierOut o) = fetchInstr s := fetchInstr_congr rfl rfl
  simp only [runInstr, hf]
  cases fetchInstr s with
  | error e => rfl
  | ok i => exact exec_withEarlierOut o s i

theorem awaitLine_withEarlierOut : awaitLine (s.withEarlierOut o) = mapNext (State.withEarlierOut o) (awaitLine s) := by
  simp only [awaitLine, withEarlierOut_hostLines]
  cases s.hostLines with
  | nil => rfl
  | cons line more =>
    simp only [hostDeliver, withEarlierOut_status]
    cases s.status <;> rfl

/-- A core that had emitted more before makes the same step. -/
theorem step_withEarlierOut : step (s.withEarlierOut o) = mapNext (State.withEarlierOut o) (step s) := by
  simp only [step, withEarlierOut_status]
  cases s.status with
  | running => exact runInstr_withEarlierOut o s
  | waitInput => exact awaitLine_withEarlierOut o s
  | halted | faulted => rfl

end

/-- Settles O55, by the law of each operation the step goes through. -/
theorem theOutputIsNeverRead : Obligations.TheOutputIsNeverRead := by
  intro s t o h
  have hstep := step_withEarlierOut o s
  rw [h] at hstep
  exact hstep

/-- A step only appends to the output: the same step from the empty output emits what is appended. -/
theorem step_appends_out {s t : State} (h : step s = .next t) : ∃ l, t.out = s.out ++ l := by
  have hs : ({ s with out := [] } : State).withEarlierOut s.out = s := by simp [State.withEarlierOut]
  have hstep := step_withEarlierOut s.out { s with out := [] }
  rw [hs, h] at hstep
  cases h0 : step { s with out := [] } <;> rw [h0] at hstep <;> cases hstep
  exact ⟨_, rfl⟩

/-- Settles O56, by induction on the run. -/
theorem outputOnlyGrowsAlongARun : Obligations.OutputOnlyGrowsAlongARun := by
  intro s t h
  induction h with
  | here => exact ⟨[], (List.append_nil _).symm⟩
  | next _ hstep ih =>
    obtain ⟨l, hl⟩ := ih
    obtain ⟨m, hm⟩ := step_appends_out hstep
    exact ⟨l ++ m, by rw [hm, hl, List.append_assoc]⟩

/-! ## The frames, the pc table, halting, the fetch off the top, and reset -/

/-- Settles O50, through the target register of each completed instruction. -/
theorem onlyTheTargetRegisterChanges : Obligations.OnlyTheTargetRegisterChanges := by
  intro i s t q h hf
  exact (completes_of_not_faulted h hf).keeps_reg

/-- Settles O51. -/
theorem stackQueueOutputAndStatusHaveTheirInstructions :
    Obligations.StackQueueOutputAndStatusHaveTheirInstructions := by
  intro i s t h hf
  exact (completes_of_not_faulted h hf).keeps_rest

/-- Settles O52. -/
theorem pcMovesAsTheTableSays : Obligations.PcMovesAsTheTableSays := by
  intro i s t v h hf
  exact (completes_of_not_faulted h hf).pc_eq

/-- Settles O53: a fault leads to FAULTED and a wait to RUNNING or WAIT_INPUT, so an instruction completed. -/
theorem onlyHaltAndEmptyRetHalt : Obligations.OnlyHaltAndEmptyRetHalt := by
  intro s t h ht
  rcases step_cases h with ⟨hs, i, hf, -, hx⟩ | ⟨-, e, -, rfl⟩ | ⟨hs, hx⟩
  · refine ⟨hs, ?_⟩
    rcases (completes_of_not_faulted hx (by simp [ht])).status_cases with hkept | ⟨-, rfl | ⟨rfl, hstack⟩⟩ | ⟨rfl, -⟩
    · simp [hkept, hs] at ht
    · exact .inl hf
    · exact .inr ⟨hf, hstack⟩
    · cases ht
  · cases ht
  · rcases awaitLine_cases hs with ⟨-, hw⟩ | ⟨line, more, -, hw⟩ <;> rw [hw] at hx <;> cases hx
    · simp [hs] at ht
    · cases ht

theorem step_of_fetch_error {s : State} {e : FetchRaise} (hs : s.status = .running) (hf : fetchInstr s = .error e) :
    step s = .next (faultState e.opcode e.raise s) := by
  simp only [step, hs, runInstr, hf, takeFault]

theorem fetchInstr_of_pc_gt {s : State} (h : 32767 < s.pc.toNat) :
    fetchInstr s = .error ⟨none, .outOfRangeAddress, s.pc⟩ := by
  rw [fetchInstr, memRead_of_gt h, BitVec.ofNat_toNat, BitVec.setWidth_eq]

theorem fetchInstr_of_end_gt {s : State} {op : Opcode} (hpc : s.pc.toNat ≤ 32767)
    (hop : Opcode.ofWord (s.mem.read s.pc.toNat) = some op) (h : 32768 < s.pc.toNat + op.length) :
    fetchInstr s = .error ⟨some (s.mem.read s.pc.toNat), .outOfRangeAddress, 32768⟩ := by
  rw [fetchInstr, memRead_of_le hpc]
  simp only [hop]
  rw [fetchOperands_outside _ _ _ (by omega) (by omega)]

/-- Settles O7: the fetch raises in both cases, and the step takes that fault. -/
theorem fetchOffTheTopFaults : Obligations.FetchOffTheTopFaults := by
  intro s hs
  refine ⟨fun hpc => ?_, fun op hpc hop hlen => ?_⟩
  · exact ⟨_, step_of_fetch_error hs (fetchInstr_of_pc_gt hpc), rfl, rfl, rfl, rfl⟩
  · exact ⟨_, step_of_fetch_error hs (fetchInstr_of_end_gt hpc hop hlen), rfl, rfl, rfl, rfl⟩

/-- Settles O58. -/
theorem resetHasTheInvariant : Obligations.ResetHasTheInvariant where
  memWf := Memory.wf_nil
  pcBound := Nat.zero_le _
  recordIff := by simp [State.reset]
  recordPc := nofun
  waitsAtIn := nofun

/-- Settles O59. -/
theorem resetValues : Obligations.ResetValues :=
  ⟨rfl, rfl, rfl, fun _ => rfl, fun q => Vector.getElem_replicate q.isLt, rfl, rfl, rfl, rfl⟩

end Sys2Proof.Machine

namespace Sys2Proof.Machine

/-! ## Memory: single accesses, the frame over all instructions, and stores into code -/

/-- A read depends on the one cell it names (R31). -/
theorem memRead_congr {a : Nat} {s t : State} (h : t.mem.read a = s.mem.read a) : memRead a t = memRead a s := by
  rw [memRead, memRead, h]

/-- `WriteTo` changes no cell but the one it names (R75). -/
theorem writeTo_keeps_cell {a : Operand} {v : Word} {s u : State} {k : Nat} (h : writeTo a v s = .ok u)
    (ha : ∀ n, a = .lit n → k ≠ n.toNat) : u.mem.read k = s.mem.read k := by
  rcases writeTo_cases a v s with ⟨n, rfl, hw⟩ | ⟨r, -, hw⟩ | ⟨w, -, hw⟩ <;> rw [hw] at h <;> cases h
  · exact Memory.read_write_other _ _ _ _ (ha n rfl)
  · rfl

/-- An instruction that completed has changed no cell but the one of its target. -/
theorem Completes.keeps_cell {s t : State} {i : Instr} {k : Nat} (h : Completes s i t)
    (hk : ∀ n : BitVec 15, i.target s = some (.lit n) → k ≠ n.toNat) : t.mem.read k = s.mem.read k := by
  have hdest : ∀ a, i.target s = some a → ∀ n, a = .lit n → k ≠ n.toNat := fun a ht n e => hk n (e ▸ ht)
  cases h with
  | stored _ ht hw => exact (writeTo_keeps_cell hw (hdest _ ht) :)
  | popped _ hw => exact (writeTo_keeps_cell hw (hdest _ rfl) :)
  | received _ hw => exact (writeTo_keeps_cell hw (hdest _ rfl) :)
  | waits | pushed | emitted | jumped | jtTaken | jtNotTaken | jfTaken | jfNotTaken | called | returned | returnHalts
  | halts | advances => rfl

/-- Settles O49, through the target cell of each completed instruction. -/
theorem onlyTheTargetCellChanges : Obligations.OnlyTheTargetCellChanges := by
  intro i s t k h hf
  exact (completes_of_not_faulted h hf).keeps_cell

/-- Settles O13. -/
theorem memReadChecksOnlyTheAddress : Obligations.MemReadChecksOnlyTheAddress :=
  fun s _ => ⟨fun h => memRead_of_le h s, fun h => memRead_of_gt h s⟩

/-- Settles O14: inside memory by the two laws of read after write, outside it both accesses raise. -/
theorem memWriteThenMemReadReturnsTheValue : Obligations.MemWriteThenMemReadReturnsTheValue := by
  intro s a v
  rcases memWrite_cases a v s with ⟨hle, hw⟩ | ⟨hgt, hw⟩
  · refine ⟨fun _ => ⟨_, hw, ?_, fun b hb => ?_, fun _ => rfl, rfl, rfl, rfl, rfl, rfl, rfl, rfl⟩, fun hgt => ?_⟩
    · rw [memRead_of_le hle, Memory.read_write_same]
    · exact memRead_congr (Memory.read_write_other _ _ _ _ hb)
    · omega
  · exact ⟨fun hle => by omega, fun _ => ⟨hw, memRead_of_gt hgt s⟩⟩

theorem step_of_fetch_ok {s : State} {i : Instr} (hs : s.status = .running) (hf : fetchInstr s = .ok i) :
    step s = exec i s := by
  simp only [step, hs, runInstr, hf]

/-- The one-word format (W1, R51): the opcode word at pc is all the fetch needs. -/
theorem fetchInstr_of_length_one {s : State} {i : Instr} (hl : i.length = 1) (hi : i.operands = [])
    (hpc : s.pc.toNat ≤ 32767) (hw : s.mem.read s.pc.toNat = i.opcode.word) : fetchInstr s = .ok i := by
  have hop : Opcode.ofWord (s.mem.read s.pc.toNat) = some i.opcode := by rw [hw, Opcode.ofWord_word]
  have hlen : i.opcode.length = 1 := hl
  obtain ⟨j, hf, ho, hp⟩ := fetchInstr_inside hop (by omega)
  have hj : j.operands = [] := by simpa [hlen] using hp
  rw [hf, Instr.ext_of_opcode_operands ho (hj.trans hi.symm)]

/-- A word above 21 at pc is compared raw and raised (R56). -/
theorem fetchInstr_of_word_gt {s : State} (hpc : s.pc.toNat ≤ 32767) (h : 21 < (s.mem.read s.pc.toNat).toNat) :
    fetchInstr s = .error ⟨some (s.mem.read s.pc.toNat), .invalidOpcode, s.mem.read s.pc.toNat⟩ := by
  rw [fetchInstr, memRead_of_le hpc]
  simp only [Opcode.ofWord_none_of_gt h]

theorem step_faultsWith_invalidOpcode {s : State} (hs : s.status = .running) (hpc : s.pc.toNat ≤ 32767)
    (h : 21 < (s.mem.read s.pc.toNat).toNat) : FaultsWith (step s) .invalidOpcode (s.mem.read s.pc.toNat) :=
  ⟨_, _, step_of_fetch_error hs (fetchInstr_of_word_gt hpc h), rfl, rfl, rfl, rfl⟩

/-- `wmem` through a literal pointer stores the value of b in that cell and advances (R136). -/
theorem exec_wmem_lit {b : Operand} {v : Word} {s : State} (n : BitVec 15) (hb : checkNumber b s = .ok v) :
    exec (.wmem (.lit n) b) s = .next { s with mem := s.mem.write n.toNat v, pc := s.pc + 3 } := by
  have hn : Operand.ofWord (n.setWidth 16) = .lit n := Operand.ofWord_toWord (o := .lit n) rfl
  simp only [exec, execWmem, checkNumber_lit, hb, hn, storeAndAdvance, writeTo_lit]
  rfl

/-- Settles O42: pc has moved to the cell just written, so the stored word is the opcode word of the next fetch. -/
theorem storeIntoCodeIsSeenByTheNextFetch : Obligations.StoreIntoCodeIsSeenByTheNextFetch := by
  intro s b v n hb hs hnext
  have hn : n.toNat ≤ 32767 := by have := n.isLt; omega
  have hpc : (s.pc + 3).toNat = n.toNat := by
    rw [BitVec.toNat_add, show (3 : Word).toNat = 3 from rfl]
    omega
  refine ⟨_, exec_wmem_lit n hb, ?_⟩
  generalize ht : ({ s with mem := s.mem.write n.toNat v, pc := s.pc + 3 } : State) = t
  have hrun : t.status = .running := ht ▸ hs
  have hat : t.pc.toNat = n.toNat := ht ▸ hpc
  have hinside : t.pc.toNat ≤ 32767 := hat ▸ hn
  have hcell : t.mem.read t.pc.toNat = v := by rw [hat, ← ht, Memory.read_write_same]
  refine ⟨fun hv => ?_, fun hv => ?_, fun hv => ?_⟩
  · have hword : v = Instr.noop.opcode.word := BitVec.eq_of_toNat_eq hv
    exact step_of_fetch_ok hrun (fetchInstr_of_length_one rfl rfl hinside (hcell.trans hword))
  · have hword : v = Instr.halt.opcode.word := BitVec.eq_of_toNat_eq hv
    exact step_of_fetch_ok hrun (fetchInstr_of_length_one rfl rfl hinside (hcell.trans hword))
  · subst hcell
    exact step_faultsWith_invalidOpcode hrun hinside hv

end Sys2Proof.Machine

namespace Sys2Proof

/-! ## Encoding: decode and encode undo each other -/

/-- Operand words that follow an opcode too few in number: the decoder names the first one missing (R51, R55). -/
theorem Opcode.decodeOperands_of_lt (op : Opcode) {ws : List Word} (h : ws.length < op.length - 1) :
    op.decodeOperands ws = .error (.missingWord (ws.length + 1)) := by
  cases op with
  | halt | ret | noop => exact absurd h (Nat.not_lt_zero _)
  | push | pop | jmp | call | out | inp =>
    match ws, h with
    | [], _ => rfl
    | _ :: _, h => simp only [List.length_cons, Opcode.length] at h; omega
  | set | jt | jf | not | rmem | wmem =>
    match ws, h with
    | [], _ | [_], _ => rfl
    | _ :: _ :: _, h => simp only [List.length_cons, Opcode.length] at h; omega
  | eq | gt | add | mult | mod | and | or =>
    match ws, h with
    | [], _ | [_], _ | [_, _], _ => rfl
    | _ :: _ :: _ :: _, h => simp only [List.length_cons, Opcode.length] at h; omega

/-- Everything there is to know of operand words that decode: they are all there, each operand is the class of its
word, and the words after them are left (R50, R51, R55). -/
theorem Opcode.decodeOperands_ok {op : Opcode} {ws rest : List Word} {i : Instr}
    (h : op.decodeOperands ws = .ok (i, rest)) :
    i.opcode = op ∧ i.operands = (ws.take (op.length - 1)).map Operand.ofWord ∧ rest = ws.drop (op.length - 1) := by
  by_cases hlen : op.length - 1 ≤ ws.length
  · obtain ⟨j, hj, hop, hargs⟩ := op.decodeOperands_of_le hlen
    rw [h] at hj
    cases hj
    exact ⟨hop, hargs, rfl⟩
  · rw [op.decodeOperands_of_lt (by omega)] at h
    cases h

theorem decode_word_cons (op : Opcode) (ws : List Word) : decode (op.word :: ws) = op.decodeOperands ws := by
  simp only [decode, Opcode.ofWord_word]

/-- A list that decodes starts with the id of some row, whose operand words are decoded (R54). -/
theorem decode_ok {ws rest : List Word} {i : Instr} (h : decode ws = .ok (i, rest)) :
    ∃ (op : Opcode) (ws' : List Word), ws = op.word :: ws' ∧ op.decodeOperands ws' = .ok (i, rest) := by
  cases ws with
  | nil => cases h
  | cons w ws' =>
    cases hop : Opcode.ofWord w with
    | none => simp [decode, hop] at h
    | some op =>
      obtain rfl := Opcode.word_of_ofWord hop
      exact ⟨op, ws', rfl, decode_word_cons op ws' ▸ h⟩

/-- Every instruction has the operands of its format (R51). -/
theorem Instr.length_operands (i : Instr) : i.operands.length = i.opcode.length - 1 := by
  cases i <;> rfl

theorem Instr.map_ofWord_toWord_operands {i : Instr} (h : i.wellFormed = true) :
    (i.operands.map Operand.toWord).map Operand.ofWord = i.operands := by
  have hback : ∀ o ∈ i.operands, Operand.ofWord o.toWord = o := fun o ho =>
    Operand.ofWord_toWord (List.all_eq_true.mp h o ho)
  rw [List.map_map]
  exact (List.map_congr_left hback).trans (List.map_id _)

/-- Settles O1: the decoded instruction has the opcode and the operands of the encoded one. -/
theorem decodeOfEncodeIsTheInstruction : Obligations.DecodeOfEncodeIsTheInstruction := by
  intro i rest hwf
  have hlen : (i.operands.map Operand.toWord).length = i.opcode.length - 1 := by
    rw [List.length_map, i.length_operands]
  obtain ⟨j, hj, hop, hargs⟩ :=
    i.opcode.decodeOperands_of_le (ws := i.operands.map Operand.toWord ++ rest) (by simp [← hlen])
  rw [List.take_left' hlen, Instr.map_ofWord_toWord_operands hwf] at hargs
  rw [List.drop_left' hlen, Instr.ext_of_opcode_operands hop hargs] at hj
  exact (decode_word_cons _ _).trans hj

/-- Settles O2: each operand is the class of its word, which is well formed and has that word again. -/
theorem decodedWordsAreTheEncoding : Obligations.DecodedWordsAreTheEncoding := by
  intro ws rest i h
  obtain ⟨op, ws', rfl, hok⟩ := decode_ok h
  obtain ⟨rfl, hargs, rfl⟩ := Opcode.decodeOperands_ok hok
  constructor
  · rw [Instr.wellFormed, hargs, List.all_map]
    exact List.all_eq_true.mpr fun w _ => Operand.wellFormed_ofWord w
  · have hwords : i.operands.map Operand.toWord = ws'.take (i.opcode.length - 1) := by
      rw [hargs, List.map_map]
      exact List.map_id'' Operand.toWord_ofWord _
    rw [encode, hwords, List.cons_append, List.take_append_drop]

/-! ### The classes of an operand word by its bits -/

theorem toNat_le_of_bit15_clear {w : Word} (h : w.getLsbD 15 = false) : w.toNat ≤ 32767 := by
  have := BitVec.msb_eq_false_iff_two_mul_lt.mp ((BitVec.msb_eq_getLsbD_last w).trans h)
  omega

theorem le_toNat_of_bit15_set {w : Word} (h : w.getLsbD 15 = true) : 32768 ≤ w.toNat := by
  have := BitVec.msb_eq_true_iff_two_mul_ge.mp ((BitVec.msb_eq_getLsbD_last w).trans h)
  omega

/-- The bits from bit 3 up, as a number. -/
theorem toNat_bits_from_three (w : Word) (n : Nat) : (w.extractLsb' 3 n).toNat = w.toNat / 8 % 2 ^ n := by
  rw [BitVec.extractLsb'_toNat, Nat.shiftRight_eq_div_pow]

/-- Settles O3: each bit pattern is the range of its class. -/
theorem operandWordClassByBits : Obligations.OperandWordClassByBits := by
  intro w
  refine ⟨fun hlow => ?_, fun hreg => ?_, fun hhigh hbits => ?_⟩
  · rw [Operand.ofWord_of_le (toNat_le_of_bit15_clear hlow), BitVec.setWidth_eq_extractLsb' (by decide)]
  · have hdiv : w.toNat / 8 % 2 ^ 13 = 4096 := by rw [← toNat_bits_from_three, hreg]; rfl
    rw [Operand.ofWord_of_reg (by omega) (by omega)]
    refine congrArg Operand.reg (Fin.ext ?_)
    show (w.toNat - 32768) % 8 = (w.extractLsb' 0 3).toNat
    rw [BitVec.extractLsb'_toNat, Nat.shiftRight_zero]
    omega
  · have hle := le_toNat_of_bit15_set hhigh
    have hdiv : w.toNat / 8 % 2 ^ 12 ≠ 0 := fun hzero =>
      hbits (BitVec.eq_of_toNat_eq ((toNat_bits_from_three w 12).trans hzero))
    exact Operand.ofWord_of_gt (by omega)

/-- Settles O4: fixed words, evaluated by the decoder. -/
theorem specWordsDecode : Obligations.SpecWordsDecode :=
  ⟨rfl, rfl, rfl, rfl, rfl, rfl, rfl, rfl, rfl, rfl⟩

/-! ## The faults of an instruction whose operand words suit their roles -/

/-- The causes of a row of R166 that do not blame an operand word (R57): they come from a value the instruction has
computed or popped, for `rmem` and `wmem` from the address their pointer operand resolves to. -/
def Instr.computedCauses : Instr → List Machine.Cause
  | .pop _ => [.stackUnderflow]
  | .mod _ _ _ => [.divideByZero]
  | .jmp _ | .jt _ _ | .jf _ _ | .call _ | .ret => [.outOfRangeAddress]
  | .rmem _ _ | .wmem _ _ => [.invalidOperand]
  | .halt | .noop | .set _ _ | .push _ | .out _ | .inp _ | .not _ _ => []
  | .eq _ _ _ | .gt _ _ _ | .add _ _ _ | .mult _ _ _ | .and _ _ _ | .or _ _ _ => []

/-- No computed cause is one of R57's, but for the address of `rmem` and `wmem`. -/
theorem Instr.computedCauses_blame_no_operand {i : Instr} {c : Machine.Cause} (h : c ∈ i.computedCauses) :
    c ≠ .invalidNumber ∧ c ≠ .invalidRegisterTarget ∧
      (c = .invalidOperand → ∃ a b, i = .rmem a b ∨ i = .wmem a b) := by
  cases i with
  | rmem a b =>
    obtain rfl := List.mem_singleton.mp h
    exact ⟨nofun, nofun, fun _ => ⟨a, b, .inl rfl⟩⟩
  | wmem a b =>
    obtain rfl := List.mem_singleton.mp h
    exact ⟨nofun, nofun, fun _ => ⟨a, b, .inr rfl⟩⟩
  | pop | mod | jmp | jt | jf | call | ret =>
    obtain rfl := List.mem_singleton.mp h
    exact ⟨nofun, nofun, nofun⟩
  | halt | noop | set | push | out | inp | not | eq | gt | add | mult | and | or => cases h

end Sys2Proof

namespace Sys2Proof.Machine

/-- If the outcome is a fault taken, its cause is one of `cs`. -/
def FaultsOnlyWith (cs : List Cause) (o : Result) : Prop :=
  ∀ t f, o = .next t → t.status = .faulted → t.fault = some f → f.cause ∈ cs

section
variable {cs : List Cause} {s : State} {a b c : Operand}

theorem faultsOnlyWith_next (hs : s.status ≠ .faulted) : FaultsOnlyWith cs (.next s) := by
  intro t f ht hfault
  cases ht
  exact absurd hfault hs

theorem faultsOnlyWith_raiseIn (op : Opcode) {r : Raise} (hr : r.cause ∈ cs) :
    FaultsOnlyWith cs (raiseIn op r s) := by
  intro t f ht _ hf
  cases ht
  cases hf
  exact hr

theorem checkNumber_of_valid (ha : a.valid = true) (s : State) : ∃ v, checkNumber a s = .ok v := by
  rcases checkNumber_cases a s with ⟨v, -, h⟩ | ⟨w, rfl, -⟩
  · exact ⟨v, h⟩
  · cases ha

theorem faultsOnlyWith_storeAndAdvance (op : Opcode) (v : Word) (hs : s.status ≠ .faulted)
    (ha : a.valid = true ∨ .invalidOperand ∈ cs) : FaultsOnlyWith cs (storeAndAdvance op a v s) := by
  rcases storeAndAdvance_cases op a v s with ⟨n, -, h⟩ | ⟨r, -, h⟩ | ⟨w, rfl, h⟩
  · exact h ▸ faultsOnlyWith_next hs
  · exact h ▸ faultsOnlyWith_next hs
  · exact faultsOnlyWith_raiseIn op (ha.resolve_left nofun)

theorem faultsOnlyWith_binaryOp (op : Opcode) (f : Word → Word → Word) (hs : s.status ≠ .faulted)
    (hv : (a.valid && b.valid && c.valid) = true) : FaultsOnlyWith cs (binaryOp op f a b c s) := by
  simp only [Bool.and_eq_true] at hv
  obtain ⟨⟨ha, hb⟩, hc⟩ := hv
  obtain ⟨vb, hvb⟩ := checkNumber_of_valid hb s
  obtain ⟨vc, hvc⟩ := checkNumber_of_valid hc s
  simp only [binaryOp, hvb, hvc]
  exact faultsOnlyWith_storeAndAdvance op _ hs (.inl ha)

theorem faultsOnlyWith_transferTo (op : Opcode) (t : Word) (hs : s.status ≠ .faulted)
    (hc : .outOfRangeAddress ∈ cs) : FaultsOnlyWith cs (transferTo op t s) := by
  rcases transferTo_cases op t s with ⟨-, h⟩ | ⟨-, h⟩ <;> rw [h]
  · exact faultsOnlyWith_next hs
  · exact faultsOnlyWith_raiseIn op (r := ⟨_, t⟩) hc

theorem faultsOnlyWith_jumpTo (op : Opcode) (hs : s.status ≠ .faulted) (ha : a.valid = true)
    (hc : .outOfRangeAddress ∈ cs) : FaultsOnlyWith cs (jumpTo op a s) := by
  obtain ⟨t, ht⟩ := checkNumber_of_valid ha s
  simp only [jumpTo, ht]
  exact faultsOnlyWith_transferTo op t hs hc

end

/-! ### The instructions with steps of their own -/

section
variable {s : State} {a b c : Operand} (hs : s.status ≠ .faulted)
include hs

theorem execSet_faultsOnlyWith (hfit : (Instr.set a b).rolesFit = true) :
    FaultsOnlyWith (Instr.set a b).computedCauses (execSet a b s) := by
  obtain ⟨ha, hb⟩ := Bool.and_eq_true_iff.mp hfit
  obtain ⟨v, hv⟩ := checkNumber_of_valid hb s
  cases a with
  | reg r =>
    simp only [execSet, hv]
    exact faultsOnlyWith_next hs
  | lit n | invalid w => cases ha

theorem execPush_faultsOnlyWith (hfit : (Instr.push a).rolesFit = true) :
    FaultsOnlyWith (Instr.push a).computedCauses (execPush a s) := by
  obtain ⟨v, hv⟩ := checkNumber_of_valid hfit s
  simp only [execPush, hv]
  exact faultsOnlyWith_next hs

theorem execPop_faultsOnlyWith (hfit : (Instr.pop a).rolesFit = true) :
    FaultsOnlyWith (Instr.pop a).computedCauses (execPop a s) := by
  rcases pop_cases s with ⟨-, h⟩ | ⟨l, v, -, h⟩ <;> simp only [execPop, h]
  · exact faultsOnlyWith_raiseIn .pop (.head _)
  · exact faultsOnlyWith_storeAndAdvance .pop v hs (.inl hfit)

theorem execJt_faultsOnlyWith (hfit : (Instr.jt a b).rolesFit = true) :
    FaultsOnlyWith (Instr.jt a b).computedCauses (execJt a b s) := by
  obtain ⟨ha, hb⟩ := Bool.and_eq_true_iff.mp hfit
  obtain ⟨v, hv⟩ := checkNumber_of_valid ha s
  simp only [execJt, hv]
  split
  · exact faultsOnlyWith_jumpTo .jt hs hb (.head _)
  · exact faultsOnlyWith_next hs

theorem execJf_faultsOnlyWith (hfit : (Instr.jf a b).rolesFit = true) :
    FaultsOnlyWith (Instr.jf a b).computedCauses (execJf a b s) := by
  obtain ⟨ha, hb⟩ := Bool.and_eq_true_iff.mp hfit
  obtain ⟨v, hv⟩ := checkNumber_of_valid ha s
  simp only [execJf, hv]
  split
  · exact faultsOnlyWith_jumpTo .jf hs hb (.head _)
  · exact faultsOnlyWith_next hs

theorem execMod_faultsOnlyWith (hfit : (Instr.mod a b c).rolesFit = true) :
    FaultsOnlyWith (Instr.mod a b c).computedCauses (execMod a b c s) := by
  simp only [Instr.rolesFit, Bool.and_eq_true] at hfit
  obtain ⟨⟨ha, hb⟩, hc⟩ := hfit
  obtain ⟨vb, hvb⟩ := checkNumber_of_valid hb s
  obtain ⟨vc, hvc⟩ := checkNumber_of_valid hc s
  simp only [execMod, hvb, hvc]
  split
  · exact faultsOnlyWith_raiseIn .mod (.head _)
  · exact faultsOnlyWith_storeAndAdvance .mod _ hs (.inl ha)

theorem execNot_faultsOnlyWith (hfit : (Instr.not a b).rolesFit = true) :
    FaultsOnlyWith (Instr.not a b).computedCauses (execNot a b s) := by
  obtain ⟨ha, hb⟩ := Bool.and_eq_true_iff.mp hfit
  obtain ⟨v, hv⟩ := checkNumber_of_valid hb s
  simp only [execNot, hv]
  exact faultsOnlyWith_storeAndAdvance .not _ hs (.inl ha)

theorem execRmem_faultsOnlyWith (hfit : (Instr.rmem a b).rolesFit = true) :
    FaultsOnlyWith (Instr.rmem a b).computedCauses (execRmem a b s) := by
  obtain ⟨ha, hb⟩ := Bool.and_eq_true_iff.mp hfit
  obtain ⟨t, ht⟩ := checkNumber_of_valid hb s
  rcases readFrom_cases (.ofWord t) s with ⟨v, h⟩ | ⟨w, -, h⟩ <;> simp only [execRmem, ht, h]
  · exact faultsOnlyWith_storeAndAdvance .rmem v hs (.inl ha)
  · exact faultsOnlyWith_raiseIn .rmem (.head _)

theorem execWmem_faultsOnlyWith (hfit : (Instr.wmem a b).rolesFit = true) :
    FaultsOnlyWith (Instr.wmem a b).computedCauses (execWmem a b s) := by
  obtain ⟨ha, hb⟩ := Bool.and_eq_true_iff.mp hfit
  obtain ⟨t, ht⟩ := checkNumber_of_valid ha s
  obtain ⟨v, hv⟩ := checkNumber_of_valid hb s
  simp only [execWmem, ht, hv]
  exact faultsOnlyWith_storeAndAdvance .wmem v hs (.inr (.head _))

theorem execRet_faultsOnlyWith : FaultsOnlyWith Instr.ret.computedCauses (execRet s) := by
  rcases pop_cases s with ⟨-, h⟩ | ⟨l, t, -, h⟩ <;> simp only [execRet, h]
  · exact faultsOnlyWith_next nofun
  · exact faultsOnlyWith_transferTo .ret t hs (.head _)

theorem execOut_faultsOnlyWith (hfit : (Instr.out a).rolesFit = true) :
    FaultsOnlyWith (Instr.out a).computedCauses (execOut a s) := by
  obtain ⟨v, hv⟩ := checkNumber_of_valid hfit s
  simp only [execOut, hv]
  exact faultsOnlyWith_next hs

theorem execIn_faultsOnlyWith (hfit : (Instr.inp a).rolesFit = true) :
    FaultsOnlyWith (Instr.inp a).computedCauses (execIn a s) := by
  unfold execIn
  split
  · exact faultsOnlyWith_next nofun
  · exact faultsOnlyWith_storeAndAdvance .inp _ hs (.inl hfit)

/-- Operand words that suit their roles leave an instruction only the faults of what it computes (R57, R166). -/
theorem exec_faultsOnlyWith_computedCauses {i : Instr} (hfit : i.rolesFit = true) :
    FaultsOnlyWith i.computedCauses (exec i s) := by
  cases i with
  | halt => exact faultsOnlyWith_next nofun
  | set a b => exact execSet_faultsOnlyWith hs hfit
  | push a => exact execPush_faultsOnlyWith hs hfit
  | pop a => exact execPop_faultsOnlyWith hs hfit
  | eq | gt | add | mult | and | or => exact faultsOnlyWith_binaryOp _ _ hs hfit
  | jmp a => exact faultsOnlyWith_jumpTo .jmp hs hfit (.head _)
  | jt a b => exact execJt_faultsOnlyWith hs hfit
  | jf a b => exact execJf_faultsOnlyWith hs hfit
  | mod a b c => exact execMod_faultsOnlyWith hs hfit
  | not a b => exact execNot_faultsOnlyWith hs hfit
  | rmem a b => exact execRmem_faultsOnlyWith hs hfit
  | wmem a b => exact execWmem_faultsOnlyWith hs hfit
  | call a => exact faultsOnlyWith_jumpTo .call (s := push (s.pc + 2) s) hs hfit (.head _)
  | ret => exact execRet_faultsOnlyWith hs
  | out a => exact execOut_faultsOnlyWith hs hfit
  | inp a => exact execIn_faultsOnlyWith hs hfit
  | noop => exact faultsOnlyWith_next hs

end

/-- Settles O48: the causes left to a fitting instruction are computed ones. -/
theorem fittingOperandsRaiseNoOperandFault : Obligations.FittingOperandsRaiseNoOperandFault := by
  intro i s t f hfit hs hx ht hf
  have hc : f.cause ∈ i.computedCauses := exec_faultsOnlyWith_computedCauses hs hfit t f hx ht hf
  exact Instr.computedCauses_blame_no_operand hc

/-! ### The illegal opcode word -/

/-- Settles O5: the fetch raises on the opcode word alone, and the step takes that fault. -/
theorem opcodeAbove21IsInvalidOpcode : Obligations.OpcodeAbove21IsInvalidOpcode :=
  fun _ => step_faultsWith_invalidOpcode

end Sys2Proof.Machine

namespace Sys2Proof

/-! ## The execution cycle -/

/-! ### The operand primitives on a word -/

/-- A literal operand word has the value of the word (R52). -/
theorem Operand.ofWord_eq_lit {w : Word} (h : w.toNat ≤ 32767) :
    ∃ n : BitVec 15, Operand.ofWord w = .lit n ∧ n.toNat = w.toNat := by
  refine ⟨w.setWidth 15, Operand.ofWord_of_le h, ?_⟩
  rw [BitVec.toNat_setWidth]
  omega

/-- A register word names the register by its distance from 32768 (R52). -/
theorem Operand.ofWord_eq_reg {w : Word} {r : Fin 8} (h : w.toNat = 32768 + r.val) : Operand.ofWord w = .reg r := by
  have hw : w = (Operand.reg r).toWord := BitVec.eq_of_toNat_eq (h.trans (Operand.toNat_toWord_reg r).symm)
  rw [hw]
  exact Operand.ofWord_toWord rfl

end Sys2Proof

namespace Sys2Proof.Machine

/-- Settles O10, by the three classes of the operand word. -/
theorem checkNumberResolvesOneLevel : Obligations.CheckNumberResolvesOneLevel := by
  intro s w
  refine ⟨fun hw => ?_, fun r hw => ?_, fun hw => ?_, fun m => checkNumber_congr _ rfl⟩
  · obtain ⟨n, hlit, hn⟩ := Operand.ofWord_eq_lit hw
    have hback : n.setWidth 16 = w := (congrArg Operand.toWord hlit).symm.trans (Operand.toWord_ofWord w)
    rw [hlit, checkNumber_lit, hback]
  · rw [Operand.ofWord_eq_reg hw, checkNumber_reg]
  · rw [Operand.ofWord_of_gt hw, checkNumber_invalid]

/-- Settles O11, by the three classes of the operand word. -/
theorem readFromReadsThePlace : Obligations.ReadFromReadsThePlace := by
  intro s w
  refine ⟨fun hw => ?_, fun r hw => ?_, fun hw => ?_⟩
  · obtain ⟨n, hlit, hn⟩ := Operand.ofWord_eq_lit hw
    rw [hlit, readFrom_lit, hn]
  · rw [Operand.ofWord_eq_reg hw, readFrom_reg]
  · rw [Operand.ofWord_of_gt hw, readFrom_invalid]

/-- `WriteTo` succeeds on every valid operand word (R75). -/
theorem writeTo_of_valid {a : Operand} (ha : a.valid = true) (v : Word) (s : State) :
    ∃ u, writeTo a v s = .ok u := by
  rcases writeTo_cases a v s with ⟨n, -, h⟩ | ⟨r, -, h⟩ | ⟨w, rfl, -⟩
  · exact ⟨_, h⟩
  · exact ⟨_, h⟩
  · cases ha

/-- Where `WriteTo` succeeds, the value stands at the place the operand names, and at no other (R75). -/
theorem writeTo_storedAt {a : Operand} {v : Word} {s u : State} (h : writeTo a v s = .ok u) : StoredAt a v s u := by
  cases a with
  | lit n =>
    refine ⟨?_, fun k hk => writeTo_keeps_cell h fun m hm => ?_, fun q => writeTo_keeps_reg h nofun⟩
    · rw [writeTo_lit] at h
      cases h
      exact Memory.read_write_same _ _ _
    · cases hm
      exact hk
  | reg r =>
    refine ⟨?_, fun q hq => writeTo_keeps_reg h fun e => ?_, fun k => writeTo_keeps_cell h nofun⟩
    · rw [writeTo_reg] at h
      cases h
      exact Vector.getElem_set_self r.isLt
    · cases e
      exact hq rfl
  | invalid w => cases h

/-- Settles O12: the write succeeds on the two valid classes, stores there (`writeTo_storedAt`) and keeps the rest
(`writeTo_keeps`). -/
theorem writeToWritesThePlace : Obligations.WriteToWritesThePlace := by
  intro s w v
  refine ⟨fun hw => ?_, fun r hw => ?_, fun hw => ?_⟩
  · obtain ⟨n, hlit, hn⟩ := Operand.ofWord_eq_lit hw
    obtain ⟨u, hu⟩ := writeTo_of_valid (a := .lit n) rfl v s
    obtain ⟨hcell, hcells, hregs⟩ := writeTo_storedAt hu
    rw [hlit, ← hn]
    exact ⟨u, hu, hcell, hcells, hregs, writeTo_keeps hu⟩
  · obtain ⟨u, hu⟩ := writeTo_of_valid (a := .reg r) rfl v s
    obtain ⟨hreg, hregs, hcells⟩ := writeTo_storedAt hu
    rw [Operand.ofWord_eq_reg hw]
    exact ⟨u, hu, hreg, hregs, hcells, writeTo_keeps hu⟩
  · rw [Operand.ofWord_of_gt hw, writeTo_invalid]

/-! ### The step -/

/-- The fetch reads what the decoder reads: the same opcode word and the same operand words (R70, R72). -/
theorem fetchInstr_of_decode {s : State} {i : Instr} {rest : List Word}
    (hd : decode ((List.range 4).map fun k => s.mem.read (s.pc.toNat + k)) = .ok (i, rest))
    (hin : s.pc.toNat + i.length ≤ 32768) : fetchInstr s = .ok i := by
  have hwords : (List.range 4).map (fun k => s.mem.read (s.pc.toNat + k)) =
      s.mem.read s.pc.toNat :: (List.range 3).map fun k => s.mem.read (s.pc.toNat + 1 + k) := rfl
  obtain ⟨op, ws, hws, hok⟩ := decode_ok hd
  obtain ⟨hw, rfl⟩ := List.cons.inj (hwords.symm.trans hws)
  obtain ⟨rfl, hargs, -⟩ := Opcode.decodeOperands_ok hok
  have hlen : i.opcode.length - 1 ≤ 3 := Nat.sub_le_sub_right (Laws.Shape.opcode_shape i.opcode).2.2 1
  have hop : Opcode.ofWord (s.mem.read s.pc.toNat) = some i.opcode := by rw [hw, Opcode.ofWord_word]
  obtain ⟨j, hj, hjop, hjargs⟩ := fetchInstr_inside hop hin
  rw [← List.map_take, List.take_range, Nat.min_eq_left hlen, List.map_map] at hargs
  rw [hj, Instr.ext_of_opcode_operands hjop (hjargs.trans hargs.symm)]

/-- Settles O6: the step executes what it fetched, and that is the decoded instruction. -/
theorem stepRunsTheDecodedInstruction : Obligations.StepRunsTheDecodedInstruction :=
  fun _ _ _ hs hd hin => step_of_fetch_ok hs (fetchInstr_of_decode hd hin)

/-- Settles O8. -/
theorem stoppedCoreHasNoStep : Obligations.StoppedCoreHasNoStep :=
  fun s => ⟨fun hs => by simp only [step, hs], fun hs => by simp only [step, hs]⟩

/-- Settles O44: an instruction completes, with one of the three statuses of `Completes.status_cases`, or has taken a
fault. -/
theorem everyInstructionAnswersANextState : Obligations.EveryInstructionAnswersANextState := by
  intro i s
  obtain ⟨t, ht, hc | hr⟩ := exec_answers i s
  · refine ⟨t, ht, ?_⟩
    rcases hc.status_cases with hkept | ⟨hhalt, -⟩ | ⟨rfl, -, -⟩
    · exact .inl hkept
    · exact .inr (.inl hhalt)
    · exact .inr (.inr (.inl ⟨rfl, rfl⟩))
  · obtain ⟨hst, hpc, -, -⟩ := hr.keeps
    exact ⟨t, ht, .inr (.inr (.inr ⟨hst, hpc⟩))⟩

/-- Settles O54: a fault leads to FAULTED and a delivered line to RUNNING, so an `in` found the queue empty or the core
waited without a line. -/
theorem onlyInOnAnEmptyQueueWaits : Obligations.OnlyInOnAnEmptyQueueWaits := by
  intro s t h ht
  rcases step_cases h with ⟨hs, i, hf, -, hx⟩ | ⟨-, e, -, rfl⟩ | ⟨hs, hx⟩
  · have hc : Completes s i t := completes_of_not_faulted hx (by simp [ht])
    rcases hc.status_cases with hkept | ⟨hhalt, -⟩ | ⟨rfl, hq, a, rfl⟩
    · simp [hkept, hs] at ht
    · simp [hhalt] at ht
    · exact .inl ⟨hs, ⟨a, hf⟩, hq, rfl⟩
  · cases ht
  · rcases awaitLine_cases hs with ⟨hl, hw⟩ | ⟨line, more, -, hw⟩ <;> rw [hw] at hx <;> cases hx
    · exact .inr ⟨hs, hl, rfl⟩
    · cases ht

/-! ### The order of the checks within one execution -/

theorem faultsWith_raiseIn (op : Opcode) (r : Raise) (s : State) : FaultsWith (raiseIn op r s) r.cause r.info :=
  ⟨_, _, rfl, rfl, rfl, rfl, rfl⟩

/-- For the shape `op a b c` an invalid b decides, then an invalid c, whatever the other operands are. -/
def ValuesFaultInOrder (mk : Operand → Operand → Operand → Instr) : Prop :=
  ∀ (s : State) (a b c : Operand) (w : Word),
    FaultsWith (exec (mk a (.invalid w) c) s) .invalidNumber w ∧
    (b.valid = true → FaultsWith (exec (mk a b (.invalid w)) s) .invalidNumber w)

/-- The order of the shared shape (R79), for every instruction whose meaning it is. -/
theorem valuesFaultInOrder_of_binaryOp {mk : Operand → Operand → Operand → Instr} {op : Opcode}
    {f : Word → Word → Word} (hmk : ∀ a b c s, exec (mk a b c) s = binaryOp op f a b c s) : ValuesFaultInOrder mk := by
  intro s a b c w
  simp only [hmk]
  refine ⟨faultsWith_raiseIn op ⟨_, w⟩ s, fun hb => ?_⟩
  obtain ⟨vb, hvb⟩ := checkNumber_of_valid hb s
  simp only [binaryOp, hvb, checkNumber_invalid]
  exact faultsWith_raiseIn op ⟨_, w⟩ s

theorem valuesFaultInOrder_mod : ValuesFaultInOrder .mod := by
  intro s a b c w
  refine ⟨faultsWith_raiseIn .mod ⟨_, w⟩ s, fun hb => ?_⟩
  obtain ⟨vb, hvb⟩ := checkNumber_of_valid hb s
  simp only [exec, execMod, hvb, checkNumber_invalid]
  exact faultsWith_raiseIn .mod ⟨_, w⟩ s

/-- Six instructions have the shared shape; `mod` has its own. -/
theorem valuesFaultInOrder :
    ∀ mk ∈ [Instr.eq, .gt, .add, .mult, .mod, .and, .or], ValuesFaultInOrder mk := by
  simp only [List.forall_mem_cons]
  exact ⟨valuesFaultInOrder_of_binaryOp (f := aluEq) fun _ _ _ _ => rfl,
    valuesFaultInOrder_of_binaryOp (f := aluGt) fun _ _ _ _ => rfl,
    valuesFaultInOrder_of_binaryOp (f := aluAdd) fun _ _ _ _ => rfl,
    valuesFaultInOrder_of_binaryOp (f := aluMult) fun _ _ _ _ => rfl,
    valuesFaultInOrder_mod,
    valuesFaultInOrder_of_binaryOp (f := aluAnd) fun _ _ _ _ => rfl,
    valuesFaultInOrder_of_binaryOp (f := aluOr) fun _ _ _ _ => rfl,
    nofun⟩

/-- The zero divisor of `mod` decides before the destination (R122). -/
theorem exec_mod_zero_divisor {s : State} {b c : Operand} (a : Operand) (hb : b.valid = true)
    (hc : checkNumber c s = .ok 0) : FaultsWith (exec (.mod a b c) s) .divideByZero c.toWord := by
  obtain ⟨vb, hvb⟩ := checkNumber_of_valid hb s
  simp only [exec, execMod, hvb, hc, if_true]
  exact faultsWith_raiseIn .mod ⟨_, c.toWord⟩ s

/-- The pointer of `rmem` decides before the destination (R135). -/
theorem exec_rmem_bad_address {s : State} {b : Operand} {t : Word} (a : Operand) (hb : checkNumber b s = .ok t)
    (ht : 32775 < t.toNat) : FaultsWith (exec (.rmem a b) s) .invalidOperand t := by
  simp only [exec, execRmem, hb, Operand.ofWord_of_gt ht, readFrom_invalid]
  exact faultsWith_raiseIn .rmem ⟨_, t⟩ s

/-- The value of `wmem` decides before the resolved address (R136). -/
theorem exec_wmem_invalid_value {a : Operand} (ha : a.valid = true) (w : Word) (s : State) :
    FaultsWith (exec (.wmem a (.invalid w)) s) .invalidNumber w := by
  obtain ⟨t, ht⟩ := checkNumber_of_valid ha s
  simp only [exec, execWmem, ht, checkNumber_invalid]
  exact faultsWith_raiseIn .wmem ⟨_, w⟩ s

/-- The register target of `set` decides before the value (R90). -/
theorem exec_set_bad_target {a : Operand} (ha : a.isReg = false) (b : Operand) (s : State) :
    FaultsWith (exec (.set a b) s) .invalidRegisterTarget a.toWord := by
  cases a with
  | reg r => cases ha
  | lit n => exact faultsWith_raiseIn .set ⟨_, (Operand.lit n).toWord⟩ s
  | invalid w => exact faultsWith_raiseIn .set ⟨_, w⟩ s

/-- The empty stack decides before the destination of `pop` (R92). -/
theorem exec_pop_empty {s : State} (hs : s.stack = []) (a : Operand) :
    FaultsWith (exec (.pop a) s) .stackUnderflow a.toWord := by
  simp only [exec, execPop, pop_nil hs]
  exact faultsWith_raiseIn .pop ⟨_, a.toWord⟩ s

/-- Settles O43: each clause is the first raise its instruction's pseudocode reaches. -/
theorem theFirstRaiseWins : Obligations.TheFirstRaiseWins :=
  ⟨valuesFaultInOrder,
    fun _ a _ _ hb hc => exec_mod_zero_divisor a hb hc,
    fun s _ w => ⟨faultsWith_raiseIn .not ⟨_, w⟩ s, faultsWith_raiseIn .rmem ⟨_, w⟩ s⟩,
    fun _ a _ _ hb ht => exec_rmem_bad_address a hb ht,
    fun s _ _ w => ⟨faultsWith_raiseIn .wmem ⟨_, w⟩ s, fun ha => exec_wmem_invalid_value ha w s⟩,
    fun s _ w => ⟨faultsWith_raiseIn .jt ⟨_, w⟩ s, faultsWith_raiseIn .jf ⟨_, w⟩ s⟩,
    fun s _ b ha => exec_set_bad_target ha b s,
    fun _ a hs => exec_pop_empty hs a⟩

end Sys2Proof.Machine

namespace Sys2Proof.Machine

/-! ## `set`, `push` and `pop` -/

/-! ### The shared ending `WriteTo, advance` by the class of its destination -/

/-- `StoredAt` speaks of memory and registers only. -/
theorem StoredAt.congr {a : Operand} {v : Word} {s s' t t' : State} (h : StoredAt a v s t)
    (hsm : s'.mem = s.mem := by rfl) (hsx : s'.x = s.x := by rfl)
    (htm : t'.mem = t.mem := by rfl) (htx : t'.x = t.x := by rfl) : StoredAt a v s' t' := by
  simpa only [StoredAt, SameMemory, SameRegisters, hsm, hsx, htm, htx] using h

/-- At a valid destination the ending stores the value, advances and changes nothing else (R75, R79). -/
theorem storeAndAdvance_of_valid {a : Operand} (ha : a.valid = true) (op : Opcode) (v : Word) (s : State) :
    ∃ t, storeAndAdvance op a v s = .next t ∧ StoredAt a v s t ∧ t.pc = s.pc + BitVec.ofNat 16 op.length ∧
      SameButStore s t := by
  obtain ⟨u, hu⟩ := writeTo_of_valid ha v s
  obtain ⟨hpc, hkept⟩ := writeTo_keeps hu
  exact ⟨advance op.length u, by simp only [storeAndAdvance, hu], (writeTo_storedAt hu).congr,
    by rw [advance_pc, hpc], hkept⟩

theorem storeAndAdvance_invalid_faultsWith (op : Opcode) (w v : Word) (s : State) :
    FaultsWith (storeAndAdvance op (.invalid w) v s) .invalidOperand w :=
  faultsWith_raiseIn op ⟨_, w⟩ s

/-! ### What each of the three instructions does with a resolving operand -/

/-- With a register target `set` ends as the instructions with a destination do (R90). -/
theorem exec_set_reg {b : Operand} {v : Word} {s : State} (r : Fin 8) (hb : checkNumber b s = .ok v) :
    exec (.set (.reg r) b) s = storeAndAdvance .set (.reg r) v s := by
  simp only [exec, execSet, hb]
  rfl

theorem exec_push {a : Operand} {v : Word} {s : State} (ha : checkNumber a s = .ok v) :
    exec (.push a) s = .next (advance Opcode.push.length (push v s)) := by
  simp only [exec, execPush, ha, pushThen_stackDepth]

/-- `pop` stores the top in the state that has already lost it (R92). -/
theorem exec_pop_append {s : State} {l : List Word} {v : Word} (hs : s.stack = l ++ [v]) (a : Operand) :
    exec (.pop a) s = storeAndAdvance .pop a v { s with stack := l } := by
  simp only [exec, execPop, pop_append hs]

/-- `pop` on a non-empty stack with a valid destination (R92). -/
theorem exec_pop_of_valid {s : State} {a : Operand} {l : List Word} {v : Word} (hs : s.stack = l ++ [v])
    (ha : a.valid = true) : ∃ t, exec (.pop a) s = .next t ∧ StoredAt a v s t ∧ t.stack = l ∧ t.pc = s.pc + 2 ∧
      t.inq = s.inq ∧ SameOutside s t := by
  obtain ⟨t, ht, hstored, hpc, hstack, hinq, houtside⟩ := storeAndAdvance_of_valid ha .pop v { s with stack := l }
  exact ⟨t, (exec_pop_append hs a).trans ht, hstored.congr, hstack, hpc, hinq, houtside⟩

/-! ### The statements -/

/-- Settles O16: a register is a valid destination, and the raises come in the order target, value. -/
theorem setCopiesAValueIntoARegister : Obligations.SetCopiesAValueIntoARegister := by
  refine ⟨fun s r b v hb => ?_, fun s a b ha => exec_set_bad_target ha b s,
    fun s r w => faultsWith_raiseIn .set ⟨_, w⟩ s⟩
  rw [exec_set_reg r hb]
  exact storeAndAdvance_of_valid rfl .set v s

/-- Settles O17: the state after a `push` is known outright. -/
theorem pushPutsAValueOnTheStack : Obligations.PushPutsAValueOnTheStack :=
  ⟨fun _ _ _ ha => ⟨_, exec_push ha, rfl, rfl, fun _ => rfl, fun _ => rfl, rfl, rfl, rfl, rfl, rfl⟩,
    fun s w => faultsWith_raiseIn .push ⟨_, w⟩ s⟩

/-- Settles O18, by whether the stack is empty and whether the destination is valid. -/
theorem popStoresTheTopOfTheStack : Obligations.PopStoresTheTopOfTheStack := by
  refine ⟨fun _ _ _ _ hs ha => exec_pop_of_valid hs ha, fun _ a hs => exec_pop_empty hs a, fun s w hne => ?_⟩
  rw [exec_pop_append (List.dropLast_concat_getLast hne).symm]
  exact storeAndAdvance_invalid_faultsWith .pop w _ _

/-- Settles O40: the pushed value is the top the `pop` finds, and the `push` has touched neither memory nor registers. -/
theorem pushThenPopMovesTheValue : Obligations.PushThenPopMovesTheValue := by
  intro s a d v ha hd
  have htop : (advance Opcode.push.length (push v s)).stack = s.stack ++ [v] := rfl
  obtain ⟨u, hu, hstored, hstack, -⟩ := exec_pop_of_valid htop hd
  exact ⟨_, u, exec_push ha, hu, hstack, hstored.congr⟩

end Sys2Proof.Machine

namespace Sys2Proof.Machine

/-! ## `eq` and `gt` -/

/-! ### The shape `op a b c` -/

/-- With two resolving values the shape is its shared ending (R79). -/
theorem binaryOp_of_ok {b c : Operand} {vb vc : Word} {s : State} (op : Opcode) (f : Word → Word → Word) (a : Operand)
    (hb : checkNumber b s = .ok vb) (hc : checkNumber c s = .ok vc) :
    binaryOp op f a b c s = storeAndAdvance op a (f vb vc) s := by
  simp only [binaryOp, hb, hc]

section
variable {mk : Operand → Operand → Operand → Instr} {op : Opcode} {f : Word → Word → Word}
  (hmk : ∀ a b c s, exec (mk a b c) s = binaryOp op f a b c s)
include hmk

/-- An instruction of the shape stores the value it computes, once its format has 4 words. -/
theorem computesInto_of_binaryOp (hlen : op.length = 4) : ComputesInto mk f := by
  intro s a b c vb vc hb hc ha
  obtain ⟨t, ht, hstored, hpc, hkept⟩ := storeAndAdvance_of_valid ha op (f vb vc) s
  rw [hlen] at hpc
  exact ⟨t, by rw [hmk, binaryOp_of_ok op f a hb hc, ht], hstored, hpc, hkept⟩

/-- An invalid value operand decides before the destination; with both values valid the destination decides (R79). -/
theorem operandFaults_of_binaryOp : OperandFaults mk := by
  intro s o p w ho hp
  have hvalues : ValuesFaultInOrder mk := valuesFaultInOrder_of_binaryOp hmk
  obtain ⟨vo, hvo⟩ := checkNumber_of_valid ho s
  obtain ⟨vp, hvp⟩ := checkNumber_of_valid hp s
  refine ⟨(hvalues s o p p w).1, (hvalues s o p p w).2 hp, ?_⟩
  rw [hmk, binaryOp_of_ok op f _ hvo hvp]
  exact storeAndAdvance_invalid_faultsWith op w _ s

end

/-! ### The comparisons as numbers -/

/-- Words are equal when their numbers are: all 16 bits count (D13). -/
theorem aluEq_eq_ite_toNat (b c : Word) : aluEq b c = if b.toNat = c.toNat then 1 else 0 := by
  simp only [aluEq, BitVec.toNat_inj]

theorem aluGt_eq_ite_toNat (b c : Word) : aluGt b c = if c.toNat < b.toNat then 1 else 0 := rfl

/-! ### The statements -/

/-- Settles O19: `eq` has the shared shape, and its comparison of words is one of numbers. -/
theorem eqStoresOneIffEqual : Obligations.EqStoresOneIffEqual := by
  have hmk : ∀ a b c s, exec (.eq a b c) s = binaryOp .eq aluEq a b c s := fun _ _ _ _ => rfl
  refine ⟨?_, operandFaults_of_binaryOp hmk⟩
  simpa only [← aluEq_eq_ite_toNat] using computesInto_of_binaryOp hmk rfl

/-- Settles O20: `gt` has the shared shape, and its comparison is the unsigned one of numbers. -/
theorem gtStoresOneIffGreater : Obligations.GtStoresOneIffGreater := by
  have hmk : ∀ a b c s, exec (.gt a b c) s = binaryOp .gt aluGt a b c s := fun _ _ _ _ => rfl
  refine ⟨?_, operandFaults_of_binaryOp hmk⟩
  simpa only [← aluGt_eq_ite_toNat] using computesInto_of_binaryOp hmk rfl

end Sys2Proof.Machine

namespace Sys2Proof.Machine

/-! ## Control flow -/

/-! ### The shared endings: the control transfer and the plain advance -/

theorem setPc_sameButPc (t : Word) (s : State) : SameButPc s (setPc t s) :=
  ⟨fun _ => rfl, fun _ => rfl, rfl, rfl, rfl, rfl, rfl, rfl⟩

theorem advance_sameButPc (n : Nat) (s : State) : SameButPc s (advance n s) :=
  ⟨fun _ => rfl, fun _ => rfl, rfl, rfl, rfl, rfl, rfl, rfl⟩

/-- The outcome is what a control transfer to `t` from `s` comes to (R16, R76). -/
def TransfersTo (o : Result) (t : Word) (s : State) : Prop :=
  (t.toNat ≤ 32767 → ∃ u, o = .next u ∧ u.pc = t ∧ SameButPc s u) ∧
  (32767 < t.toNat → FaultsWith o .outOfRangeAddress t)

theorem transferTo_transfersTo (op : Opcode) (t : Word) (s : State) : TransfersTo (transferTo op t s) t s := by
  rcases transferTo_cases op t s with ⟨hle, ht⟩ | ⟨hgt, ht⟩ <;> rw [ht]
  · exact ⟨fun _ => ⟨_, rfl, rfl, setPc_sameButPc t s⟩, fun hgt => by omega⟩
  · exact ⟨fun hle => by omega, fun _ => faultsWith_raiseIn op ⟨_, t⟩ s⟩

/-- A transfer after a stack operation keeps the new stack and all that operation kept. -/
theorem transferTo_withStack (op : Opcode) (t : Word) (l : List Word) (s : State) :
    (t.toNat ≤ 32767 → ∃ u, transferTo op t { s with stack := l } = .next u ∧ u.pc = t ∧ u.stack = l ∧
      SameMemory s u ∧ SameRegisters s u ∧ u.inq = s.inq ∧ SameOutside s u) ∧
    (32767 < t.toNat → FaultsWith (transferTo op t { s with stack := l }) .outOfRangeAddress t) := by
  obtain ⟨hin, hout⟩ := transferTo_transfersTo op t { s with stack := l }
  refine ⟨fun ht => ?_, hout⟩
  obtain ⟨u, hu, hpc, hmem, hreg, hstack, hinq, houtside⟩ := hin ht
  exact ⟨u, hu, hpc, hstack, hmem, hreg, hinq, houtside⟩

theorem jumpTo_of_ok {a : Operand} {t : Word} {s : State} (op : Opcode) (ha : checkNumber a s = .ok t) :
    jumpTo op a s = transferTo op t s := by
  simp only [jumpTo, ha]

theorem jumpTo_transfersTo {a : Operand} {t : Word} {s : State} (op : Opcode) (ha : checkNumber a s = .ok t) :
    TransfersTo (jumpTo op a s) t s := by
  rw [jumpTo_of_ok op ha]
  exact transferTo_transfersTo op t s

theorem jumpTo_invalid_faultsWith (op : Opcode) (w : Word) (s : State) :
    FaultsWith (jumpTo op (.invalid w) s) .invalidNumber w :=
  faultsWith_raiseIn op ⟨_, w⟩ s

/-! ### What each instruction does, by its condition or its stack -/

theorem exec_jt_taken {a : Operand} {va : Word} {s : State} (b : Operand) (ha : checkNumber a s = .ok va)
    (hva : va ≠ 0) : exec (.jt a b) s = jumpTo .jt b s := by
  simp only [exec, execJt, ha, if_pos hva]

/-- The target word of a `jt` that is not taken is not looked at (D15). -/
theorem exec_jt_not_taken {a : Operand} {s : State} (b : Operand) (ha : checkNumber a s = .ok 0) :
    exec (.jt a b) s = .next (advance Opcode.jt.length s) := by
  simp only [exec, execJt, ha, ne_eq, not_true_eq_false, if_false]

theorem exec_jf_taken {a : Operand} {s : State} (b : Operand) (ha : checkNumber a s = .ok 0) :
    exec (.jf a b) s = jumpTo .jf b s := by
  simp only [exec, execJf, ha, if_true]

/-- The target word of a `jf` that is not taken is not looked at (D15). -/
theorem exec_jf_not_taken {a : Operand} {va : Word} {s : State} (b : Operand) (ha : checkNumber a s = .ok va)
    (hva : va ≠ 0) : exec (.jf a b) s = .next (advance Opcode.jf.length s) := by
  simp only [exec, execJf, ha, if_neg hva]

/-- `call` transfers control in the state that has already pushed the return address; the push leaves the target's
value as it was (R109). -/
theorem exec_call {a : Operand} {t : Word} {s : State} (ha : checkNumber a s = .ok t) :
    exec (.call a) s = transferTo .call t (push (s.pc + 2) s) :=
  jumpTo_of_ok .call ((checkNumber_congr a (push_x (s.pc + 2) s)).trans ha)

/-- `ret` transfers control in the state that has already lost the top of the stack (R110). -/
theorem exec_ret_append {s : State} {l : List Word} {t : Word} (hs : s.stack = l ++ [t]) :
    exec .ret s = transferTo .ret t { s with stack := l } := by
  simp only [exec, execRet, pop_append hs]

theorem exec_ret_empty {s : State} (hs : s.stack = []) : exec .ret s = .next (setHalted s) := by
  simp only [exec, execRet, pop_nil hs]

/-! ### The image's tail and the end of memory -/

theorem mem_of_resetWith {image : List Word} {s : State} (h : resetWith image = .next s) :
    s.mem = Memory.ofWordsAt 0 image := by
  unfold resetWith at h
  split at h <;> cases h
  rfl

/-- A cell the image did not fill holds 0 (R28). -/
theorem read_of_resetWith_of_length_le {image : List Word} {s : State} {k : Nat} (h : resetWith image = .next s)
    (hk : image.length ≤ k) : s.mem.read k = 0 := by
  have hread := Memory.read_ofWordsAt image 0 k
  rwa [Nat.zero_add, List.getD_eq_default _ _ hk, ← mem_of_resetWith h] at hread

theorem step_faultsWith_of_pc_gt {s : State} (hs : s.status = .running) (hpc : 32767 < s.pc.toNat) :
    FaultsWith (step s) .outOfRangeAddress s.pc :=
  ⟨_, _, step_of_fetch_error hs (fetchInstr_of_pc_gt hpc), rfl, rfl, rfl, rfl⟩

/-! ### The statements -/

/-- Settles O15: the state after `halt` is known outright, and a halted core has no step. -/
theorem haltStopsTheCore : Obligations.HaltStopsTheCore := by
  refine ⟨fun s => ⟨setHalted s, rfl, rfl, rfl⟩, fun s t u h hstep => ?_, rfl,
    fun _ _ _ => read_of_resetWith_of_length_le⟩
  cases h
  rw [(stoppedCoreHasNoStep _).1 (setHalted_status s)] at hstep
  cases hstep

/-- Settles O21: `jmp` is the shared jump. -/
theorem jmpGoesToTheTarget : Obligations.JmpGoesToTheTarget :=
  ⟨fun _ _ _ ha => jumpTo_transfersTo .jmp ha, fun s w => jumpTo_invalid_faultsWith .jmp w s⟩

/-- Settles O22: a `jt` that is taken is the shared jump, one that is not taken an advance by its 3 words. -/
theorem jtJumpsWhenNotZero : Obligations.JtJumpsWhenNotZero := by
  refine ⟨fun s a b va t ha hva hb => ?_, fun s a b ha => ?_, fun s b w => faultsWith_raiseIn .jt ⟨_, w⟩ s,
    fun s a va w ha hva => ?_⟩
  · rw [exec_jt_taken b ha hva]
    exact jumpTo_transfersTo .jt hb
  · exact ⟨_, exec_jt_not_taken b ha, rfl, advance_sameButPc _ s⟩
  · rw [exec_jt_taken _ ha hva]
    exact jumpTo_invalid_faultsWith .jt w s

/-- Settles O23: a `jf` that is taken is the shared jump, one that is not taken an advance by its 3 words. -/
theorem jfJumpsWhenZero : Obligations.JfJumpsWhenZero := by
  refine ⟨fun s a b t ha hb => ?_, fun s a b va ha hva => ?_, fun s b w => faultsWith_raiseIn .jf ⟨_, w⟩ s,
    fun s a w ha => ?_⟩
  · rw [exec_jf_taken b ha]
    exact jumpTo_transfersTo .jf hb
  · exact ⟨_, exec_jf_not_taken b ha hva, rfl, advance_sameButPc _ s⟩
  · rw [exec_jf_taken _ ha]
    exact jumpTo_invalid_faultsWith .jf w s

/-- Settles O32: the transfer follows the push of the return address. -/
theorem callPushesTheReturnAddress : Obligations.CallPushesTheReturnAddress := by
  refine ⟨fun s a t ha => ?_, fun s w => jumpTo_invalid_faultsWith .call w (push (s.pc + 2) s)⟩
  rw [exec_call ha]
  exact transferTo_withStack .call t (s.stack ++ [s.pc + 2]) s

/-- Settles O33: the transfer follows the pop; an empty stack halts the core. -/
theorem retJumpsToThePoppedAddress : Obligations.RetJumpsToThePoppedAddress := by
  refine ⟨fun s l t hs => ?_, fun s hs => exec_ret_empty hs⟩
  rw [exec_ret_append hs]
  exact transferTo_withStack .ret t l s

/-- Settles O38: behind the last address of memory the next fetch is off the top. -/
theorem noopOnlyAdvances : Obligations.NoopOnlyAdvances := by
  refine ⟨fun s => ⟨_, rfl, rfl, advance_sameButPc _ s⟩, fun s t hs hpc h => ?_⟩
  cases h
  have hnext : (advance Opcode.noop.length s).pc = 32768 := by rw [advance_pc, hpc]; rfl
  rw [← hnext]
  exact step_faultsWith_of_pc_gt hs (by rw [hnext]; decide)

/-- Settles O41: the return address the `call` pushed is the top the `ret` finds. -/
theorem retReturnsBehindTheCall : Obligations.RetReturnsBehindTheCall := by
  intro s a t ha ht hback
  obtain ⟨u, hu, -, hstack, hmem, hreg, -⟩ := (callPushesTheReturnAddress.1 s a t ha).1 ht
  obtain ⟨v, hv, hpc, hstack', hmem', hreg', -⟩ := (retJumpsToThePoppedAddress.1 u s.stack (s.pc + 2) hstack).1 hback
  exact ⟨u, v, hu, hv, hpc, hstack', fun k => (hmem' k).trans (hmem k), fun q => (hreg' q).trans (hreg q)⟩

end Sys2Proof.Machine

namespace Sys2Proof.Machine

/-! ## `add`, `mult`, `mod`, `and`, `or` and `not` -/

/-! ### The shape `op a b c` -/

/-- What an instruction of the shape stores and how it faults, from its meaning and its 4 words (R79). -/
theorem computesInto_and_operandFaults_of_binaryOp {mk : Operand → Operand → Operand → Instr} {op : Opcode}
    {f : Word → Word → Word} (hmk : ∀ a b c s, exec (mk a b c) s = binaryOp op f a b c s) (hlen : op.length = 4) :
    ComputesInto mk f ∧ OperandFaults mk :=
  ⟨computesInto_of_binaryOp hmk hlen, operandFaults_of_binaryOp hmk⟩

/-! ### The datapath of `add`, `mult` and `not` -/

/-- What is reduced modulo 32768 is a literal number (R126, R128). -/
theorem toNat_ofNat_mod_modulus_le (n : Nat) : (BitVec.ofNat 16 (n % Config.modulus)).toNat ≤ 32767 := by
  simp only [BitVec.toNat_ofNat, Config.modulus]
  omega

/-- The mask of `not` has bits 14 to 0 set and bit 15 clear (R125). -/
theorem getLsbD_notMask (k : Nat) : (32767 : Word).getLsbD k = decide (k < 15) := by
  have hmask : (32767 : Word) = (BitVec.allOnes 15).setWidth 16 := rfl
  rw [hmask, BitVec.getLsbD_setWidth, BitVec.getLsbD_allOnes, ← Bool.decide_and]
  exact decide_eq_decide.2 (by omega)

theorem getLsbD_aluNot (x : Word) (k : Nat) : (aluNot x).getLsbD k = (decide (k < 15) ^^ x.getLsbD k) := by
  rw [aluNot, BitVec.getLsbD_xor, getLsbD_notMask]

theorem aluNot_aluNot (x : Word) : aluNot (aluNot x) = x := by
  rw [aluNot, aluNot, ← BitVec.xor_assoc, BitVec.xor_self, BitVec.zero_xor]

/-! ### `mod` and `not` with resolving values -/

theorem valid_of_checkNumber {a : Operand} {v : Word} {s : State} (h : checkNumber a s = .ok v) : a.valid = true := by
  cases a with
  | lit n => rfl
  | reg r => rfl
  | invalid w => cases h

/-- With a divisor that is not 0 `mod` ends as the instructions with a destination do (R122). -/
theorem exec_mod_of_ne_zero {b c : Operand} {vb vc : Word} {s : State} (a : Operand) (hb : checkNumber b s = .ok vb)
    (hc : checkNumber c s = .ok vc) (hvc : vc ≠ 0) :
    exec (.mod a b c) s = storeAndAdvance .mod a (aluMod vb vc) s := by
  simp only [exec, execMod, hb, hc, if_neg hvc]

theorem exec_not {b : Operand} {vb : Word} {s : State} (a : Operand) (hb : checkNumber b s = .ok vb) :
    exec (.not a b) s = storeAndAdvance .not a (aluNot vb) s := by
  simp only [exec, execNot, hb]

/-! ### The statements -/

/-- Settles O24: `add` has the shared shape, and its datapath is the exact sum modulo 32768. -/
theorem addStoresTheSumModulo32768 : Obligations.AddStoresTheSumModulo32768 :=
  computesInto_and_operandFaults_of_binaryOp (op := .add) (f := aluAdd) (fun _ _ _ _ => rfl) rfl

/-- Settles O25: `mult` has the shared shape, and its datapath is the exact product modulo 32768. -/
theorem multStoresTheProductModulo32768 : Obligations.MultStoresTheProductModulo32768 :=
  computesInto_and_operandFaults_of_binaryOp (op := .mult) (f := aluMult) (fun _ _ _ _ => rfl) rfl

/-- Settles O26: the values decide in order, then the zero divisor, then the destination. -/
theorem modStoresTheRemainder : Obligations.ModStoresTheRemainder := by
  refine ⟨fun s a b c vb vc hb hc => ⟨fun hvc ha => ?_, fun hvc => ?_⟩,
    fun s a c w => (valuesFaultInOrder_mod s a c c w).1, fun s a b w => (valuesFaultInOrder_mod s a b b w).2,
    fun s b c vc w hvalid hc hvc => ?_⟩
  · rw [exec_mod_of_ne_zero a hb hc hvc]
    exact storeAndAdvance_of_valid ha .mod (aluMod vb vc) s
  · rw [hvc] at hc
    exact exec_mod_zero_divisor a (valid_of_checkNumber hb) hc
  · obtain ⟨vb, hb⟩ := checkNumber_of_valid hvalid s
    rw [exec_mod_of_ne_zero _ hb hc hvc]
    exact storeAndAdvance_invalid_faultsWith .mod w _ s

/-- Settles O27: `and` has the shared shape. -/
theorem andStoresTheBitwiseAnd : Obligations.AndStoresTheBitwiseAnd :=
  computesInto_and_operandFaults_of_binaryOp (op := .and) (f := aluAnd) (fun _ _ _ _ => rfl) rfl

/-- Settles O28: `or` has the shared shape. -/
theorem orStoresTheBitwiseOr : Obligations.OrStoresTheBitwiseOr :=
  computesInto_and_operandFaults_of_binaryOp (op := .or) (f := aluOr) (fun _ _ _ _ => rfl) rfl

/-- Settles O29: what is stored is `aluNot` of the value, whose bits `getLsbD_aluNot` gives. -/
theorem notFlipsTheLow15Bits : Obligations.NotFlipsTheLow15Bits := by
  refine ⟨fun s a b vb hb ha => ?_, fun s a w => faultsWith_raiseIn .not ⟨_, w⟩ s, fun s b w hvalid => ?_⟩
  · obtain ⟨t, ht, hstored, hpc, hkept⟩ := storeAndAdvance_of_valid ha .not (aluNot vb) s
    refine ⟨t, aluNot vb, (exec_not a hb).trans ht, hstored, fun k hk => ?_, ?_, hpc, hkept⟩
    · rw [getLsbD_aluNot, decide_eq_true hk, Bool.true_xor]
    · rw [getLsbD_aluNot, decide_eq_false (lt_irrefl 15), Bool.false_xor]
  · obtain ⟨vb, hb⟩ := checkNumber_of_valid hvalid s
    rw [exec_not _ hb]
    exact storeAndAdvance_invalid_faultsWith .not w _ s

/-- Settles O39: both sums and products are reduced modulo 32768, and the mask of `not` cancels itself. -/
theorem sumsAndProductsStayBelow32768AndNotIsAnInvolution :
    Obligations.SumsAndProductsStayBelow32768AndNotIsAnInvolution :=
  ⟨fun b c => ⟨toNat_ofNat_mod_modulus_le (b.toNat + c.toNat), toNat_ofNat_mod_modulus_le (b.toNat * c.toNat)⟩,
    aluNot_aluNot⟩

end Sys2Proof.Machine

namespace Sys2Proof.Machine

/-! ## `rmem` and `wmem` -/

/-! ### What each does once its operands resolve -/

/-- Every number up to the last register's names a place that `ReadFrom` can read (R74). -/
theorem readFrom_ofWord_of_le {t : Word} (ht : t.toNat ≤ 32775) (s : State) :
    ∃ v, readFrom (.ofWord t) s = .ok v := by
  by_cases hcell : t.toNat ≤ 32767
  · exact ⟨_, by rw [Operand.ofWord_of_le hcell, readFrom_lit]⟩
  · exact ⟨_, by rw [Operand.ofWord_of_reg (by omega) ht, readFrom_reg]⟩

/-- With a readable pointer `rmem` ends as the instructions with a destination do (R135). -/
theorem exec_rmem {b : Operand} {t v : Word} {s : State} (a : Operand) (hb : checkNumber b s = .ok t)
    (hv : readFrom (.ofWord t) s = .ok v) : exec (.rmem a b) s = storeAndAdvance .rmem a v s := by
  simp only [exec, execRmem, hb, hv]

/-- With two resolving operands `wmem` ends as the instructions with a destination do, and the resolved address is the
destination (R136). -/
theorem exec_wmem {a b : Operand} {t v : Word} {s : State} (ha : checkNumber a s = .ok t)
    (hb : checkNumber b s = .ok v) : exec (.wmem a b) s = storeAndAdvance .wmem (.ofWord t) v s := by
  simp only [exec, execWmem, ha, hb]

/-- `rmem` with a readable pointer and a valid destination (R135). -/
theorem exec_rmem_of_valid {a b : Operand} {t v : Word} {s : State} (ha : a.valid = true)
    (hb : checkNumber b s = .ok t) (hv : readFrom (.ofWord t) s = .ok v) :
    ∃ u, exec (.rmem a b) s = .next u ∧ StoredAt a v s u ∧ u.pc = s.pc + 3 ∧ SameButStore s u := by
  rw [exec_rmem a hb hv]
  exact storeAndAdvance_of_valid ha .rmem v s

/-! ### The statements -/

/-- Settles O30: the class of the resolved address says what `ReadFrom` answers (`readFromReadsThePlace`), and that is
stored. -/
theorem rmemLoadsThroughThePointer : Obligations.RmemLoadsThroughThePointer := by
  refine ⟨fun s a b t hb ha => ?_, fun s a w _ => faultsWith_raiseIn .rmem ⟨_, w⟩ s, fun s b t w hb ht => ?_⟩
  · obtain ⟨hcell, hreg, -⟩ := readFromReadsThePlace s t
    exact ⟨fun ht => exec_rmem_of_valid ha hb (hcell ht), fun r ht => exec_rmem_of_valid ha hb (hreg r ht),
      exec_rmem_bad_address a hb⟩
  · obtain ⟨v, hv⟩ := readFrom_ofWord_of_le ht s
    rw [exec_rmem _ hb hv]
    exact storeAndAdvance_invalid_faultsWith .rmem w v s

/-- Settles O31: the class of the resolved address says at which place the shared ending stores. -/
theorem wmemStoresThroughThePointer : Obligations.WmemStoresThroughThePointer := by
  refine ⟨fun s a b t v ha hb => ?_, fun s b w _ => faultsWith_raiseIn .wmem ⟨_, w⟩ s,
    fun s a w ha => exec_wmem_invalid_value ha w s⟩
  rw [exec_wmem ha hb]
  refine ⟨fun ht => ?_, fun r ht => ?_, fun ht => ?_⟩
  · obtain ⟨n, hlit, hn⟩ := Operand.ofWord_eq_lit ht
    obtain ⟨u, hu, ⟨hcell, hcells, hregs⟩, hpc, hkept⟩ := storeAndAdvance_of_valid (a := .lit n) rfl .wmem v s
    rw [hlit, ← hn]
    exact ⟨u, hu, hcell, hcells, hregs, hpc, hkept⟩
  · obtain ⟨u, hu, ⟨hreg, hregs, hcells⟩, hpc, hkept⟩ := storeAndAdvance_of_valid (a := .reg r) rfl .wmem v s
    rw [Operand.ofWord_eq_reg ht]
    exact ⟨u, hu, hreg, hregs, hcells, hpc, hkept⟩
  · rw [Operand.ofWord_of_gt ht]
    exact storeAndAdvance_invalid_faultsWith .wmem t v s

end Sys2Proof.Machine

namespace Sys2Proof.Machine

/-! ## Input and output -/

/-! ### What each transition does, by the queue and the host's lines -/

theorem exec_out {a : Operand} {v : Word} {s : State} (ha : checkNumber a s = .ok v) :
    exec (.out a) s = .next (advance Opcode.out.length (emit v s)) := by
  simp only [exec, execOut, ha]

/-- The destination word of an `in` that waits is not looked at (D28). -/
theorem exec_inp_empty {s : State} (hq : s.inq = []) (a : Operand) : exec (.inp a) s = .next (setWaiting s) := by
  simp only [exec, execIn, hq]

/-- `in` stores the head in the state whose queue has already lost it (R141). -/
theorem exec_inp_cons {s : State} {k : Word} {rest : List Word} (hq : s.inq = k :: rest) (a : Operand) :
    exec (.inp a) s = storeAndAdvance .inp a k { s with inq := rest } := by
  simp only [exec, execIn, hq]

/-- In WAIT_INPUT the machine's step is the host's (R83, R141). -/
theorem step_of_waitInput {s : State} (hs : s.status = .waitInput) : step s = awaitLine s := by
  simp only [step, hs]

theorem awaitLine_nil {s : State} (hl : s.hostLines = []) : awaitLine s = .next s := by
  simp only [awaitLine, hl]

/-- The line leaves the host's lines and is delivered (R142). -/
theorem awaitLine_cons {s : State} {line : List Word} {more : List (List Word)} (hl : s.hostLines = line :: more) :
    awaitLine s = hostDeliver line { s with hostLines := more } := by
  simp only [awaitLine, hl]

theorem hostDeliver_of_waitInput {s : State} (hs : s.status = .waitInput) (line : List Word) :
    hostDeliver line s = .next { s with inq := line ++ [Config.newline], status := .running } := by
  simp only [hostDeliver, hs]

/-! ### The statements -/

/-- Settles O9: the step in WAIT_INPUT is a delivery when there is a line, and only there is a delivery accepted
(`hostDeliver_cases`). -/
theorem lineIsDeliveredOnlyWhenAskedFor : Obligations.LineIsDeliveredOnlyWhenAskedFor := by
  refine ⟨fun s line more hs hl => ?_, fun s hs hl => ?_, fun s line hs => ?_⟩
  · rw [step_of_waitInput hs, awaitLine_cons hl]
    exact hostDeliver_of_waitInput (s := { s with hostLines := more }) hs line
  · rw [step_of_waitInput hs, awaitLine_nil hl]
  · obtain ⟨-, hrefused⟩ := (hostDeliver_cases line s).resolve_left fun ⟨hwait, _⟩ => hs hwait
    exact hrefused

/-- Settles O35: the state after an `out` is known outright. -/
theorem outEmitsTheValue : Obligations.OutEmitsTheValue :=
  ⟨fun _ _ _ ha => ⟨_, exec_out ha, rfl, rfl, fun _ => rfl, fun _ => rfl, rfl, rfl, rfl, rfl, rfl⟩,
    fun s w => faultsWith_raiseIn .out ⟨_, w⟩ s⟩

/-- Settles O36: the shared ending stores the head at a valid destination and raises at an invalid one. -/
theorem inStoresTheHeadOfTheQueue : Obligations.InStoresTheHeadOfTheQueue := by
  refine ⟨fun s a k rest hq ha => ?_, fun s w hne => ?_⟩
  · obtain ⟨t, ht, hstored, hpc, hstack, hinq, houtside⟩ :=
      storeAndAdvance_of_valid ha .inp k { s with inq := rest }
    exact ⟨t, (exec_inp_cons hq a).trans ht, hstored.congr, hinq, hpc, hstack, houtside⟩
  · obtain ⟨k, rest, hq⟩ := List.exists_cons_of_ne_nil hne
    rw [exec_inp_cons hq]
    exact storeAndAdvance_invalid_faultsWith .inp w k _

/-- Settles O37: the state of an `in` that waits is known outright. -/
theorem inWaitsOnAnEmptyQueue : Obligations.InWaitsOnAnEmptyQueue :=
  fun _ a hq => exec_inp_empty hq a

end Sys2Proof.Machine

namespace Sys2Proof.Machine

/-! ## Taking a fault -/

/-! ### Where FAULTED comes from -/

/-- Only a raise leads to FAULTED: `halt` and an empty `ret` lead to HALTED, `in` to WAIT_INPUT, and every other
instruction that completes keeps the status. -/
theorem Completes.not_faulted {s t : State} {i : Instr} (h : Completes s i t) (hs : s.status ≠ .faulted) :
    t.status ≠ .faulted := by
  rcases h.status_cases with hkept | ⟨hhalt, -⟩ | ⟨rfl, -, -⟩
  · rwa [hkept]
  · rw [hhalt]
    nofun
  · nofun

/-- An instruction that comes to FAULTED from another status has raised. -/
theorem raises_of_faulted {i : Instr} {s t : State} (hs : s.status ≠ .faulted) (h : exec i s = .next t)
    (ht : t.status = .faulted) : Raises s i t :=
  (exec_cases h).resolve_left fun hc => hc.not_faulted hs ht

/-- The wait for a line never comes to FAULTED (R141, R144). -/
theorem awaitLine_not_faulted {s t : State} (hs : s.status = .waitInput) (h : awaitLine s = .next t) :
    t.status ≠ .faulted := by
  rcases awaitLine_cases hs with ⟨-, hw⟩ | ⟨line, more, -, hw⟩ <;> rw [hw] at h <;> cases h
  · rw [hs]
    nofun
  · nofun

/-- A step that ends in FAULTED has taken a fault, in its fetch or in its execution (R150). -/
theorem step_takes_fault {s t : State} (h : step s = .next t) (ht : t.status = .faulted) :
    ∃ op r u, t = faultState op r u := by
  rcases step_cases h with ⟨hs, i, -, -, hx⟩ | ⟨-, e, -, rfl⟩ | ⟨hs, hx⟩
  · have hne : s.status ≠ .faulted := by simp [hs]
    obtain ⟨r, u, -, -, rfl⟩ := raises_of_faulted hne hx ht
    exact ⟨_, r, u, rfl⟩
  · exact ⟨_, _, _, rfl⟩
  · exact absurd ht (awaitLine_not_faulted hs hx)

/-! ### The statements -/

/-- Settles O45: the instruction has raised, in a state that still had the pc, the output and the host's lines it began
with, and the record is made from that state. -/
theorem faultEntryRecordsPcAndOpcode : Obligations.FaultEntryRecordsPcAndOpcode := by
  intro i s t hs h ht
  obtain ⟨r, u, -, ⟨hpc, hout, hlines⟩, rfl⟩ := raises_of_faulted hs h ht
  exact ⟨hpc, hout, hlines, _, rfl, hpc, rfl⟩

/-- Settles O46: the state is that of a fault just taken, and in FAULTED the core has no step (`stoppedCoreHasNoStep`). -/
theorem everyFaultIsFatal : Obligations.EveryFaultIsFatal := by
  intro s t h ht
  obtain ⟨op, r, u, rfl⟩ := step_takes_fault h ht
  refine ⟨rfl, ⟨_, rfl⟩, fun v hv => ?_⟩
  obtain ⟨-, hstop⟩ := stoppedCoreHasNoStep (faultState op r u)
  rw [hstop ht] at hv
  cases hv

/-- Settles O47: the instruction has raised a cause of its row, and that cause is the recorded one. -/
theorem onlyTheListedCausesAreRaised : Obligations.OnlyTheListedCausesAreRaised := by
  intro i s t f hs h ht hf
  obtain ⟨r, u, hcause, -, rfl⟩ := raises_of_faulted hs h ht
  cases hf
  exact hcause

/-- Settles O34: the state of a `ret` on an empty stack is known outright. -/
theorem retOnEmptyStackHaltsWithoutFault : Obligations.RetOnEmptyStackHaltsWithoutFault :=
  fun _ hs => ⟨_, exec_ret_empty hs, rfl, rfl, rfl⟩

end Sys2Proof.Machine

namespace Sys2Proof.Machine

/-! ## Reset with an image -/

theorem resetWith_of_length_le {image : List Word} (h : image.length ≤ 32768) :
    resetWith image = .next { State.reset with mem := Memory.ofWordsAt 0 image } :=
  if_pos h

/-- An image longer than memory is refused (R180, D5). -/
theorem resetWith_of_length_gt {image : List Word} (h : 32768 < image.length) :
    resetWith image = .refused .imageTooLong :=
  if_neg (Nat.not_le.2 h)

/-- Of the invariant only the canonical form of memory depends on what is loaded: the reset state is RUNNING, so nothing
is asked of the instruction at pc. -/
theorem inv_reset_with_mem {m : Memory} (h : m.wf) : State.Inv { State.reset with mem := m } :=
  have hreset : State.reset.Inv := resetHasTheInvariant
  { memWf := h
    pcBound := hreset.pcBound
    recordIff := hreset.recordIff
    recordPc := hreset.recordPc
    waitsAtIn := nofun }

/-- Settles O60: the length decides between the loaded state, whose cells are the image's words, and the refusal. -/
theorem resetLoadsTheImage : Obligations.ResetLoadsTheImage := by
  refine fun image => ⟨fun hlen => ⟨_, resetWith_of_length_le hlen, fun k => ?_, rfl, ?_⟩, resetWith_of_length_gt⟩
  · have hread := Memory.read_ofWordsAt image 0 k
    rwa [Nat.zero_add] at hread
  · exact inv_reset_with_mem (Memory.wf_ofWordsAt image hlen)

end Sys2Proof.Machine
